-- ==== Sys2Proof/Word.lean ====
section
/-! DEFINITION. The widths of the CORE's values (10_state.md R20, R23, R26; 30_encoding.md R92, R93) and the
notation `v[hi:lo]` of 00_scope.md R9. -/

namespace Sys2Proof

/-- An 8-bit value: a general register, a timer, a memory byte, the immediate kk (R20, R28, R61, R92). -/
abbrev Byte := BitVec 8

/-- A 16-bit value: pc, I, a stack slot, an opcode (R23, R26, R27, R90). -/
abbrev Word := BitVec 16

/-- The 12-bit unsigned address field nnn (R91, R92). -/
abbrev Addr12 := BitVec 12

/-- A 4-bit field read as bits: the height n of a sprite, an opcode nibble (R91, R92). -/
abbrev Nibble := BitVec 4

/-- The number of a general register, 0x0..0xF (R20, R93). -/
abbrev Reg := Fin 16

/-- The number of a key, 0x0..0xF (R29). -/
abbrev Key := Fin 16

/-- The number of the flag register VF (R21). -/
abbrev Reg.f : Reg := 15

end Sys2Proof
end

