-- ==== Sys2Proof/Config.lean ====
section
/-! DEFINITION. The parameters of 00_scope.md R8 that the spec leaves open, as constants without a body: a statement
about them holds for every value they could have. FONT, a parameter with a
default, is carried by the memory (`Sys2Proof.Machine.Memory.font`, any 80 bytes); the per-frame step count P_STEPS is the argument of `Sys2Proof.Machine.run`. -/

namespace Sys2Proof

/-- The two settings of P_FONT_DIGIT (00_scope.md R8; 92_eei_decisions.md D14). -/
inductive FontDigit where
  /-- Fx29 uses the low nibble of Vx as the digit. -/
  | lowNibble
  /-- Fx29 uses the whole byte Vx as the digit. -/
  | fullByte
deriving DecidableEq, Repr, Inhabited

/-- P_FONT_DIGIT, an OPEN parameter: which part of Vx Fx29 uses (44_keys_timers_misc.md R290). DESIGN CHOICE, safe:
no proof can see which setting it is (log 2). -/
opaque Config.fontDigit : FontDigit

/-- The RNG parameter: the byte that draw number `k` yields (42_load_alu.md R215; 93 U7). DESIGN CHOICE, safe: a free
value, nothing constrains it (log 4). -/
opaque Config.rngByte : Nat → Byte

end Sys2Proof
end

