-- ==== Sys2Proof/Syntax.lean ====
section
/-! DEFINITION. The 35 instructions of base CHIP-8, one constructor per row of spec/opcode_table.json
(00_scope.md R2, 30_encoding.md R96). Register and key fields are numbers 0..15, kk is a byte, nnn a 12-bit
address, n a 4-bit count (R91-R93). -/

namespace Sys2Proof

/-- An instruction of 30_encoding.md R96, in the order of spec/opcode_table.json. -/
inductive Instr where
  /-- 00E0 CLS: clear the display (R151). -/
  | cls
  /-- 00EE RET: return from subroutine (R152). -/
  | ret
  /-- 0nnn SYS nnn, nnn neither 0E0 nor 0EE: no-op (R153). -/
  | sys (nnn : Addr12)
  /-- 1nnn JP nnn: jump (R154). -/
  | jp (nnn : Addr12)
  /-- 2nnn CALL nnn: call subroutine (R156). -/
  | call (nnn : Addr12)
  /-- 3xkk SE Vx, kk: skip if equal (R158). -/
  | seImm (x : Reg) (kk : Byte)
  /-- 4xkk SNE Vx, kk: skip if not equal (R159). -/
  | sneImm (x : Reg) (kk : Byte)
  /-- 5xy0 SE Vx, Vy: skip if registers equal (R160). -/
  | seReg (x y : Reg)
  /-- 9xy0 SNE Vx, Vy: skip if registers differ (R161). -/
  | sneReg (x y : Reg)
  /-- Bnnn JP V0, nnn: jump with offset (R155). -/
  | jpV0 (nnn : Addr12)
  /-- 6xkk LD Vx, kk: load immediate (R200). -/
  | ldImm (x : Reg) (kk : Byte)
  /-- 7xkk ADD Vx, kk: add immediate, no carry (R201). -/
  | addImm (x : Reg) (kk : Byte)
  /-- 8xy0 LD Vx, Vy: assign (R203). -/
  | ldReg (x y : Reg)
  /-- 8xy1 OR Vx, Vy (R204). -/
  | orReg (x y : Reg)
  /-- 8xy2 AND Vx, Vy (R205). -/
  | andReg (x y : Reg)
  /-- 8xy3 XOR Vx, Vy (R206). -/
  | xorReg (x y : Reg)
  /-- 8xy4 ADD Vx, Vy: add with carry (R207). -/
  | addReg (x y : Reg)
  /-- 8xy5 SUB Vx, Vy (R208). -/
  | sub (x y : Reg)
  /-- 8xy6 SHR Vx, Vy (R209). -/
  | shr (x y : Reg)
  /-- 8xy7 SUBN Vx, Vy (R210). -/
  | subn (x y : Reg)
  /-- 8xyE SHL Vx, Vy (R211). -/
  | shl (x y : Reg)
  /-- Annn LD I, nnn (R213). -/
  | ldI (nnn : Addr12)
  /-- Cxkk RND Vx, kk (R214). -/
  | rnd (x : Reg) (kk : Byte)
  /-- Dxyn DRW Vx, Vy, n (R250). -/
  | drw (x y : Reg) (n : Nibble)
  /-- Ex9E SKP Vx: skip if key pressed (R281). -/
  | skp (x : Reg)
  /-- ExA1 SKNP Vx: skip if key not pressed (R282). -/
  | sknp (x : Reg)
  /-- Fx07 LD Vx, DT (R285). -/
  | ldVDt (x : Reg)
  /-- Fx0A LD Vx, K: wait for key release (R286). -/
  | ldVK (x : Reg)
  /-- Fx15 LD DT, Vx (R287). -/
  | ldDtV (x : Reg)
  /-- Fx18 LD ST, Vx (R288). -/
  | ldStV (x : Reg)
  /-- Fx1E ADD I, Vx (R289). -/
  | addIV (x : Reg)
  /-- Fx29 LD F, Vx: font glyph address (R290). -/
  | ldFV (x : Reg)
  /-- Fx33 LD B, Vx: store BCD (R291). -/
  | ldBV (x : Reg)
  /-- Fx55 LD [I], Vx: store V0..Vx (R292). -/
  | ldMemV (x : Reg)
  /-- Fx65 LD Vx, [I]: load V0..Vx (R293). -/
  | ldVMem (x : Reg)
deriving DecidableEq, Repr

end Sys2Proof
end

