-- ==== Sys2Proof/WellFormed.lean ====
section
/-! DEFINITION. The one check an instruction's fields do not carry in their types: 0x00E0 and 0x00EE are CLS and RET,
never SYS (30_encoding.md R95, R98; 41_system_and_flow.md R150). -/

namespace Sys2Proof

/-- The instruction is one that some opcode stands for: SYS does not take the words of CLS and RET (R150). -/
def Instr.wf : Instr → Bool
  | .sys nnn => nnn != 0x0E0#12 && nnn != 0x0EE#12
  | .cls | .ret | .jp _ | .call _ | .seImm _ _ | .sneImm _ _ | .seReg _ _ | .sneReg _ _ | .jpV0 _
  | .ldImm _ _ | .addImm _ _ | .ldReg _ _ | .orReg _ _ | .andReg _ _ | .xorReg _ _ | .addReg _ _ | .sub _ _
  | .shr _ _ | .subn _ _ | .shl _ _ | .ldI _ | .rnd _ _ | .drw _ _ _ | .skp _ | .sknp _ | .ldVDt _ | .ldVK _
  | .ldDtV _ | .ldStV _ | .addIV _ | .ldFV _ | .ldBV _ | .ldMemV _ | .ldVMem _ => true

end Sys2Proof
end

