-- ==== Sys2Proof/Decode.lean ====
section
/-! DEFINITION. The instruction decoder of 30_encoding.md R90-R99 and 40_cycle.md R123, R124: total on every word and
every list of bytes, rejecting by name; and after it the encoder, written from the patterns of R96. -/

namespace Sys2Proof

/-! ### The fields of an opcode (R91, R123) -/

/-- `v[hi:lo]` with `w = hi - lo + 1`: the field as bits (00_scope.md R9). -/
def field (op : Word) (lo w : Nat) : BitVec w := op.extractLsb' lo w

/-- The top nibble op[15:12], which selects the family. -/
def family (op : Word) : Nibble := field op 12 4

/-- A 4-bit field as a register number (R93). -/
def regOf (b : Nibble) : Reg := ⟨b.toNat, b.isLt⟩

/-- A register number as a 4-bit field (R93). -/
def nibbleOf (r : Reg) : Nibble := BitVec.ofNat 4 r.val

/-- x = op[11:8]. -/
def fieldX (op : Word) : Reg := regOf (field op 8 4)

/-- y = op[7:4]. -/
def fieldY (op : Word) : Reg := regOf (field op 4 4)

/-- n = op[3:0]. -/
def fieldN (op : Word) : Nibble := field op 0 4

/-- kk = op[7:0]. -/
def fieldKK (op : Word) : Byte := field op 0 8

/-- nnn = op[11:0]. -/
def fieldNNN (op : Word) : Addr12 := field op 0 12

/-! ### The decoder (R94, R97, R124) -/

/-- Why bytes decode to no instruction. The first five are the rows of R97; each is an unimplemented opcode, which
faults when it is executed (R124, R332). -/
inductive DecodeError where
  /-- 5xyn with n != 0 (R162). -/
  | family5
  /-- 9xyn with n != 0 (R162). -/
  | family9
  /-- 8xyn with n none of 0..7, E (R212). -/
  | family8
  /-- Exkk with kk neither 9E nor A1 (R283). -/
  | familyE
  /-- Fxkk with kk none of the nine sub-codes (R294). -/
  | familyF
  /-- Fewer than two bytes: no opcode at all (R90). -/
  | truncated
deriving DecidableEq, Repr

/-- What the decoder reads from an opcode: an instruction, or the name of the reason there is none. -/
inductive Decoded where
  | instr (i : Instr)
  | rejected (why : DecodeError)
deriving DecidableEq, Repr

/-- The instruction a decoding gives, if any. -/
def Decoded.toOption : Decoded → Option Instr
  | .instr i => some i
  | .rejected _ => none

/-- Family 0x0 selects by the whole opcode (R150). -/
def decodeFamily0 (op : Word) : Decoded :=
  if op = 0x00E0#16 then .instr .cls
  else if op = 0x00EE#16 then .instr .ret
  else .instr (.sys (fieldNNN op))

/-- Family 0x5 selects by n (R94, R162). -/
def decodeFamily5 (op : Word) : Decoded :=
  if fieldN op = 0x0#4 then .instr (.seReg (fieldX op) (fieldY op)) else .rejected .family5

/-- Family 0x8 selects by n (R202, R212). -/
def decodeFamily8 (op : Word) : Decoded :=
  let x := fieldX op
  let y := fieldY op
  if fieldN op = 0x0#4 then .instr (.ldReg x y)
  else if fieldN op = 0x1#4 then .instr (.orReg x y)
  else if fieldN op = 0x2#4 then .instr (.andReg x y)
  else if fieldN op = 0x3#4 then .instr (.xorReg x y)
  else if fieldN op = 0x4#4 then .instr (.addReg x y)
  else if fieldN op = 0x5#4 then .instr (.sub x y)
  else if fieldN op = 0x6#4 then .instr (.shr x y)
  else if fieldN op = 0x7#4 then .instr (.subn x y)
  else if fieldN op = 0xE#4 then .instr (.shl x y)
  else .rejected .family8

/-- Family 0x9 selects by n (R94, R162). -/
def decodeFamily9 (op : Word) : Decoded :=
  if fieldN op = 0x0#4 then .instr (.sneReg (fieldX op) (fieldY op)) else .rejected .family9

/-- Family 0xE selects by kk (R280, R283). -/
def decodeFamilyE (op : Word) : Decoded :=
  if fieldKK op = 0x9E#8 then .instr (.skp (fieldX op))
  else if fieldKK op = 0xA1#8 then .instr (.sknp (fieldX op))
  else .rejected .familyE

/-- Family 0xF selects by kk (R284, R294). -/
def decodeFamilyF (op : Word) : Decoded :=
  let x := fieldX op
  if fieldKK op = 0x07#8 then .instr (.ldVDt x)
  else if fieldKK op = 0x0A#8 then .instr (.ldVK x)
  else if fieldKK op = 0x15#8 then .instr (.ldDtV x)
  else if fieldKK op = 0x18#8 then .instr (.ldStV x)
  else if fieldKK op = 0x1E#8 then .instr (.addIV x)
  else if fieldKK op = 0x29#8 then .instr (.ldFV x)
  else if fieldKK op = 0x33#8 then .instr (.ldBV x)
  else if fieldKK op = 0x55#8 then .instr (.ldMemV x)
  else if fieldKK op = 0x65#8 then .instr (.ldVMem x)
  else .rejected .familyF

/-- `decode(op)` followed by the selection of R124's table: a pure function of the opcode. -/
def decodeWord (op : Word) : Decoded :=
  if family op = 0x0#4 then decodeFamily0 op
  else if family op = 0x1#4 then .instr (.jp (fieldNNN op))
  else if family op = 0x2#4 then .instr (.call (fieldNNN op))
  else if family op = 0x3#4 then .instr (.seImm (fieldX op) (fieldKK op))
  else if family op = 0x4#4 then .instr (.sneImm (fieldX op) (fieldKK op))
  else if family op = 0x5#4 then decodeFamily5 op
  else if family op = 0x6#4 then .instr (.ldImm (fieldX op) (fieldKK op))
  else if family op = 0x7#4 then .instr (.addImm (fieldX op) (fieldKK op))
  else if family op = 0x8#4 then decodeFamily8 op
  else if family op = 0x9#4 then decodeFamily9 op
  else if family op = 0xA#4 then .instr (.ldI (fieldNNN op))
  else if family op = 0xB#4 then .instr (.jpV0 (fieldNNN op))
  else if family op = 0xC#4 then .instr (.rnd (fieldX op) (fieldKK op))
  else if family op = 0xD#4 then .instr (.drw (fieldX op) (fieldY op) (fieldN op))
  else if family op = 0xE#4 then decodeFamilyE op
  else decodeFamilyF op

/-- The opcode that two consecutive bytes make, the byte at the lower address high (20_memory.md R68). -/
def opcodeOf (high low : Byte) : Word := high ++ low

/-- Decode the first instruction of a list of bytes as memory holds them, with the bytes after it (R68, R90). -/
def decodeBytes : List Byte → Decoded × List Byte
  | high :: low :: rest => (decodeWord (opcodeOf high low), rest)
  | short => (.rejected .truncated, short)

/-! ### The encoder (R96) -/

/-- An opcode of the form fnnn. -/
def wordN (f : Nibble) (nnn : Addr12) : Word := f ++ nnn

/-- An opcode of the form fxkk. -/
def wordXK (f : Nibble) (x : Reg) (kk : Byte) : Word := f ++ (nibbleOf x ++ kk)

/-- An opcode of the form fxyn. -/
def wordXY (f : Nibble) (x y : Reg) (n : Nibble) : Word := f ++ (nibbleOf x ++ (nibbleOf y ++ n))

/-- The one opcode of an instruction, by the patterns of R96 (R101). -/
def encode : Instr → Word
  | .cls => 0x00E0#16
  | .ret => 0x00EE#16
  | .sys nnn => wordN 0x0#4 nnn
  | .jp nnn => wordN 0x1#4 nnn
  | .call nnn => wordN 0x2#4 nnn
  | .seImm x kk => wordXK 0x3#4 x kk
  | .sneImm x kk => wordXK 0x4#4 x kk
  | .seReg x y => wordXY 0x5#4 x y 0x0#4
  | .sneReg x y => wordXY 0x9#4 x y 0x0#4
  | .jpV0 nnn => wordN 0xB#4 nnn
  | .ldImm x kk => wordXK 0x6#4 x kk
  | .addImm x kk => wordXK 0x7#4 x kk
  | .ldReg x y => wordXY 0x8#4 x y 0x0#4
  | .orReg x y => wordXY 0x8#4 x y 0x1#4
  | .andReg x y => wordXY 0x8#4 x y 0x2#4
  | .xorReg x y => wordXY 0x8#4 x y 0x3#4
  | .addReg x y => wordXY 0x8#4 x y 0x4#4
  | .sub x y => wordXY 0x8#4 x y 0x5#4
  | .shr x y => wordXY 0x8#4 x y 0x6#4
  | .subn x y => wordXY 0x8#4 x y 0x7#4
  | .shl x y => wordXY 0x8#4 x y 0xE#4
  | .ldI nnn => wordN 0xA#4 nnn
  | .rnd x kk => wordXK 0xC#4 x kk
  | .drw x y n => wordXY 0xD#4 x y n
  | .skp x => wordXK 0xE#4 x 0x9E#8
  | .sknp x => wordXK 0xE#4 x 0xA1#8
  | .ldVDt x => wordXK 0xF#4 x 0x07#8
  | .ldVK x => wordXK 0xF#4 x 0x0A#8
  | .ldDtV x => wordXK 0xF#4 x 0x15#8
  | .ldStV x => wordXK 0xF#4 x 0x18#8
  | .addIV x => wordXK 0xF#4 x 0x1E#8
  | .ldFV x => wordXK 0xF#4 x 0x29#8
  | .ldBV x => wordXK 0xF#4 x 0x33#8
  | .ldMemV x => wordXK 0xF#4 x 0x55#8
  | .ldVMem x => wordXK 0xF#4 x 0x65#8

/-! ### The host's question: the opcode table's words -/

/-- The two bytes, in the order memory holds them (high byte at the lower address, R68), of an opcode that the
opcode table numbers with bit 0 its least significant bit. -/
def bytesOfWord (op : Word) : List Byte := [op.extractLsb' 8 8, op.extractLsb' 0 8]

/-- The opcode whose low `nbits` bits are `w` and whose other bits are 0. -/
def tableWord (nbits w : Nat) : Word := BitVec.ofNat 16 (w % 2 ^ nbits)

/-- The instruction the decoder reads from a table row's word: one 16-bit word, laid out as memory holds it. -/
def decodeTableWord (nbits w : Nat) : Option Instr := (decodeBytes (bytesOfWord (tableWord nbits w))).1.toOption

end Sys2Proof
end

