-- ==== Sys2Proof/Machine/Font.lean ====
section
/-! DEFINITION. The parameter FONT (00_scope.md R8; 20_memory.md R63): any 80 bytes, and the spec's default for them. -/

namespace Sys2Proof.Machine

/-- A value of the parameter FONT: 16 glyphs of 5 bytes, glyph d at index 5 * d (R63). -/
abbrev Font := Vector Byte 80

/-- The default of FONT, glyphs 0 to F (92_eei_decisions.md D26). PRESUMED by the spec's own mark: only `State.reset`
names it, and unsafe for a claim on glyph bytes that starts there (log 3). -/
def defaultFont : Font :=
  #v[0xF0#8, 0x90#8, 0x90#8, 0x90#8, 0xF0#8] ++ #v[0x20#8, 0x60#8, 0x20#8, 0x20#8, 0x70#8] ++
  #v[0xF0#8, 0x10#8, 0xF0#8, 0x80#8, 0xF0#8] ++ #v[0xF0#8, 0x10#8, 0xF0#8, 0x10#8, 0xF0#8] ++
  #v[0x90#8, 0x90#8, 0xF0#8, 0x10#8, 0x10#8] ++ #v[0xF0#8, 0x80#8, 0xF0#8, 0x10#8, 0xF0#8] ++
  #v[0xF0#8, 0x80#8, 0xF0#8, 0x90#8, 0xF0#8] ++ #v[0xF0#8, 0x10#8, 0x20#8, 0x40#8, 0x40#8] ++
  #v[0xF0#8, 0x90#8, 0xF0#8, 0x90#8, 0xF0#8] ++ #v[0xF0#8, 0x90#8, 0xF0#8, 0x10#8, 0xF0#8] ++
  #v[0xF0#8, 0x90#8, 0xF0#8, 0x90#8, 0x90#8] ++ #v[0xE0#8, 0x90#8, 0xE0#8, 0x90#8, 0xE0#8] ++
  #v[0xF0#8, 0x80#8, 0x80#8, 0x80#8, 0xF0#8] ++ #v[0xE0#8, 0x90#8, 0x90#8, 0x90#8, 0xE0#8] ++
  #v[0xF0#8, 0x80#8, 0xF0#8, 0x80#8, 0xF0#8] ++ #v[0xF0#8, 0x80#8, 0xF0#8, 0x80#8, 0x80#8]

end Sys2Proof.Machine
end

