-- ==== Sys2Proof/Machine/State.lean ====
section
/-! DEFINITION. The state of the CORE as plain data: everything 10_state.md and 20_memory.md name, with its reset
values (R37, R38), and the reasons a step can stop. -/

namespace Sys2Proof.Machine

/-- The causes of a fault (60_exceptions.md R331). -/
inductive FaultCause where
  /-- Code 1: an opcode of R97 was executed (R332). -/
  | unimplementedInstruction
  /-- Code 2: CALL with SP = 16 (R156). -/
  | stackOverflow
  /-- Code 3: RET with SP = 0 (R152). -/
  | stackUnderflow
  /-- Code 4: a fetch at pc > 0xFFE (R333). -/
  | fetchOutOfRange
  /-- Code 5: DRW, LD_B_V, LD_MEM_V or LD_V_MEM at an address of 0x1000 or more (R334). -/
  | dataAddressOutOfRange
deriving DecidableEq, Repr

/-- A fault record (R32, R331). Its code is `FaultRecord.code`, read from the cause (log 6). -/
structure FaultRecord where
  cause : FaultCause
  /-- The raw opcode; none for a fetch fault. -/
  opcode : Option Word
  /-- The pc when the fault was raised. -/
  pc : Word
  /-- The lowest out-of-range address, an exact integer; none where no address is at fault. -/
  addr : Option Nat
deriving DecidableEq, Repr

/-- The 4096-byte memory (20_memory.md R60) as the bytes that differ from their reset contents: addresses strictly
rising, every entry in range and different from what an unlisted address reads as (`Memory.wf`, log 17). -/
structure Memory where
  /-- The parameter FONT, the reset contents of 0x50..0x9F (R62, R63): the model's own field, no state of the CORE
  (10_state.md R35). It may be any 80 bytes, and nothing changes it (log 3). -/
  font : Font
  cells : List Host.Cell
deriving DecidableEq, Repr

/-- The display plane: 32 rows of 64 one-bit pixels (10_state.md R30). -/
abbrev Screen := Vector (Vector Bool 64) 32

/-- The whole state of the CORE (10_state.md, 20_memory.md). -/
structure State where
  /-- V0..VF (R20). -/
  v : Vector Byte 16
  /-- The program counter (R23). -/
  pc : Word
  /-- The index register I (R26). -/
  i : Word
  /-- The stack slots (R27). -/
  stack : Vector Word 16
  /-- The stack depth SP, 0..16 (R27). -/
  sp : Fin 17
  /-- The delay timer (R28). -/
  dt : Byte
  /-- The sound timer (R28). -/
  st : Byte
  /-- The keypad of the current frame; true is pressed (R29). -/
  keys : Vector Bool 16
  /-- The snapshot of the previous frame's keypad (R29). -/
  keysPrev : Vector Bool 16
  /-- The display plane, by row and then column (R30). -/
  screen : Screen
  /-- The display-wait flag DW (R33). -/
  dw : Bool
  /-- The fault status (R32). -/
  fault : Option FaultRecord
  /-- Whether a ROM has been installed (R31). -/
  romLoaded : Bool
  /-- The installed ROM's path (R31). -/
  romPath : String
  /-- Memory (R60). -/
  mem : Memory
  /-- How many random bytes have been drawn: the model's own field, it numbers the draws of the RNG parameter
  (R215, log 4). -/
  rngDraws : Nat
deriving DecidableEq, Repr

/-- The state at power-on under a value of FONT: the reset values of R37 with romLoaded = false and romPath = "" (R38,
R393). The draw counter's 0 is a DESIGN CHOICE, safe: the byte it selects is a free value (log 4). -/
def State.powerOn (font : Font) : State where
  v := Vector.replicate 16 0#8
  pc := 0x200#16
  i := 0#16
  stack := Vector.replicate 16 0#16
  sp := 0
  dt := 0#8
  st := 0#8
  keys := Vector.replicate 16 false
  keysPrev := Vector.replicate 16 false
  screen := Vector.replicate 32 (Vector.replicate 64 false)
  dw := false
  fault := none
  romLoaded := false
  romPath := ""
  mem := ⟨font, []⟩
  rngDraws := 0

/-- The state at power-on under FONT's default (R8; 92_eei_decisions.md D26; log 3). -/
def State.reset : State := State.powerOn defaultFont

/-- Why a step stops. -/
inductive Fault where
  /-- Raised by `step` alone, when the machine already holds a fault record (R127, R337; 93 U12): the step changes
  nothing and returns the stored record. Safe: nothing is executed, as the spec says. -/
  | stopped (r : FaultRecord)
deriving DecidableEq, Repr

/-- Why an instruction has no meaning. -/
inductive Refusal where
  /-- An instruction without a meaning. Raised by no instruction: every arm of `exec` has its meaning. Safe. -/
  | notModelled (mnemonic : String)
deriving DecidableEq, Repr

end Sys2Proof.Machine
end

