-- ==== Sys2Proof/Machine/Memory.lean ====
section
/-! DEFINITION. The 4096-byte memory (20_memory.md R60-R69): what a byte reads as, what a write changes, and the
canonical form of the list that holds it. Bounds are the instructions' to check, before any access (R64, R336). -/

namespace Sys2Proof.Machine

/-- MEM_SIZE (00_scope.md R7): the addresses 0x000..0xFFF exist. -/
def memSize : Nat := 4096

/-- FONT_BASE (R7): the address of the first glyph byte. -/
def fontBase : Nat := 0x50

/-- GLYPH_HEIGHT (R7): the bytes of one glyph. -/
def glyphHeight : Nat := 5

/-- PROG_START (R7): where a ROM is installed and where pc starts. -/
def progStart : Nat := 0x200

/-- ROM_MAX (R7): the size of the program region. -/
def romMax : Nat := 3584

/-- What an unlisted address reads as: the contents after reset (R62, 10_state.md R37): FONT at 0x50..0x9F and 0
elsewhere. -/
def resetByte (font : Font) (a : Nat) : Byte :=
  if h : fontBase ≤ a ∧ a - fontBase < 80 then font[a - fontBase] else 0#8

/-- The byte the list gives for address `a`. -/
def lookupCell (font : Font) (a : Nat) : List Host.Cell → Byte
  | [] => resetByte font a
  | c :: rest => if c.1 = a then c.2 else lookupCell font a rest

/-- The entry that makes address `a` read as `b`: none where an unlisted address already does. -/
def cellFor (font : Font) (a : Nat) (b : Byte) : List Host.Cell := if b = resetByte font a then [] else [(a, b)]

/-- The list without an entry for address `a`. -/
def dropCell (a : Nat) (cells : List Host.Cell) : List Host.Cell := cells.filter (fun c => c.1 != a)

/-- Put the entry that makes `a` read as `b` before the first higher address. -/
def insertCell (font : Font) (a : Nat) (b : Byte) : List Host.Cell → List Host.Cell
  | [] => cellFor font a b
  | c :: rest => if a < c.1 then cellFor font a b ++ c :: rest else c :: insertCell font a b rest

/-- `MemRead(a, 1)` of an address that the instruction has checked (00_scope.md R11). A read has no side effect (R69). -/
def Memory.read (m : Memory) (a : Nat) : Byte := lookupCell m.font a m.cells

/-- `MemWrite(a, 1, b)` of an address that the instruction has checked (R11, R69). An address that does not exist holds
nothing, so nothing is written there; no instruction gets that far (R64). -/
def Memory.write (m : Memory) (a : Nat) (b : Byte) : Memory :=
  if a < memSize then ⟨m.font, insertCell m.font a b (dropCell a m.cells)⟩ else m

/-- Consecutive bytes written from address `a` on. -/
def Memory.writeBytes (m : Memory) (a : Nat) : List Byte → Memory
  | [] => m
  | b :: rest => (m.write a b).writeBytes (a + 1) rest

/-- Every address is at least `low`, below MEM_SIZE and above the one before it, and no entry equals what an unlisted
address reads as. -/
def cellsWf (font : Font) (low : Nat) : List Host.Cell → Bool
  | [] => true
  | c :: rest =>
    decide (low ≤ c.1) && decide (c.1 < memSize) && c.2 != resetByte font c.1 && cellsWf font (c.1 + 1) rest

/-- The canonical form: equal memories are equal lists (log 17). -/
def Memory.wf (m : Memory) : Bool := cellsWf m.font 0 m.cells

/-- The lowest address of 0x1000 or more among the `count` consecutive bytes from `base`, if there is one (R64, R334).
Addresses are exact integers. -/
def lowestBad (base count : Nat) : Option Nat :=
  if 0 < count ∧ memSize < base + count then some (max base memSize) else none

end Sys2Proof.Machine
end

