-- ==== Sys2Proof/Machine/Ops.lean ====
section
/-! DEFINITION. The named operations the meanings are written in: reading and writing registers, the stack, the keypad
and the plane (00_scope.md R11), completing an instruction (40_cycle.md R126) and raising a fault (60_exceptions.md
R335). There is no return from a fault: only reset() and loadRom clear one (R330, R337). -/

namespace Sys2Proof.Machine

/-- What a meaning answers. -/
abbrev Result := Host.Outcome State Fault Refusal

/-! ### General registers and VF -/

/-- `V[r]` (R11). -/
def State.readV (s : State) (r : Reg) : Byte := s.v[r.val]

/-- `V[r] <- b` (R11). -/
def State.writeV (s : State) (r : Reg) (b : Byte) : State := { s with v := s.v.set r.val b }

/-- `V[F] <- b`: the flag (10_state.md R21). -/
def State.writeVF (s : State) (b : Byte) : State := s.writeV Reg.f b

/-! ### pc, I, timers -/

/-- `pc <- t`. -/
def State.setPc (s : State) (t : Word) : State := { s with pc := t }

/-- `I <- t`. -/
def State.setI (s : State) (t : Word) : State := { s with i := t }

/-- `DT <- b`. -/
def State.setDt (s : State) (b : Byte) : State := { s with dt := b }

/-- `ST <- b`. -/
def State.setSt (s : State) (b : Byte) : State := { s with st := b }

/-- `DW <- b`. -/
def State.setDw (s : State) (b : Bool) : State := { s with dw := b }

/-- The fetch's advance, pc + 2 (40_cycle.md R121). -/
def State.advancePc (s : State) : State := s.setPc (s.pc + 2#16)

/-- A skip: pc + 2 more when the condition holds (41_system_and_flow.md R157). -/
def State.skipIf (s : State) (c : Bool) : State := if c then s.setPc (s.pc + 2#16) else s

/-! ### Memory -/

/-- `MemRead(a, 1)`. -/
def State.readMem (s : State) (a : Nat) : Byte := s.mem.read a

/-- `MemWrite(a, 1, b)`. -/
def State.writeMem (s : State) (a : Nat) (b : Byte) : State := { s with mem := s.mem.write a b }

/-! ### The stack (10_state.md R27) -/

/-- `stack[SP] <- t; SP <- SP + 1`; none when SP = 16 (41_system_and_flow.md R156). -/
def State.push (s : State) (t : Word) : Option State :=
  if h : s.sp.val < 16 then
    some { s with stack := s.stack.set s.sp.val t, sp := ⟨s.sp.val + 1, Nat.succ_lt_succ h⟩ }
  else none

/-- `SP <- SP - 1`, with the value `stack[SP]` then holds; none when SP = 0. The slot keeps its value (R152). -/
def State.pop (s : State) : Option (Word × State) :=
  if h : 0 < s.sp.val then
    some (s.stack[s.sp.val - 1]'(by omega), { s with sp := ⟨s.sp.val - 1, by omega⟩ })
  else none

/-! ### The keypad and its edge detector (60_exceptions.md R344) -/

/-- `Keys[k]`. -/
def State.key (s : State) (k : Key) : Bool := s.keys[k.val]

/-- `KeysPrev[k]`. -/
def State.keyPrev (s : State) (k : Key) : Bool := s.keysPrev[k.val]

/-- A falling edge: pressed in the snapshot, not pressed now. -/
def State.released (s : State) (k : Key) : Bool := s.keyPrev k && !s.key k

/-- A rising edge: not pressed in the snapshot, pressed now. -/
def State.pressed (s : State) (k : Key) : Bool := !s.keyPrev k && s.key k

/-- The sixteen numbers 0x0..0xF in ascending order: the keys of Fx0A's scan, the registers of Fx55 and Fx65. -/
def ascending : List (Fin 16) := [0, 1, 2, 3, 4, 5, 6, 7, 8, 9, 10, 11, 12, 13, 14, 15]

/-- The lowest key with a falling edge, if any (44_keys_timers_misc.md R286; the order is D13's decision, log 12). -/
def State.firstReleased (s : State) : Option Key := ascending.find? s.released

/-! ### The plane (10_state.md R30) -/

/-- `Pixel(c, r)`. -/
def State.pixel (s : State) (c : Fin 64) (r : Fin 32) : Bool := (s.screen[r.val])[c.val]

/-- `Pixel(c, r) <- b`. -/
def State.setPixel (s : State) (c : Fin 64) (r : Fin 32) (b : Bool) : State :=
  { s with screen := s.screen.set r.val ((s.screen[r.val]).set c.val b) }

/-- Every pixel 0 (41_system_and_flow.md R151). -/
def State.clearScreen (s : State) : State := { s with screen := Vector.replicate 32 (Vector.replicate 64 false) }

/-! ### The random source (42_load_alu.md R215) -/

/-- `draw_rng()`: the next byte of the RNG parameter, a free value (log 4). -/
def State.nextDraw (s : State) : Byte := Config.rngByte s.rngDraws

/-- One draw has been taken. -/
def State.tookDraw (s : State) : State := { s with rngDraws := s.rngDraws + 1 }

/-! ### How an instruction ends -/

/-- An instruction completes: DW becomes 1 if it was a sprite draw and 0 otherwise (40_cycle.md R126). -/
def complete (draw : Bool) (s : State) : Result := .next (s.setDw draw)

/-- The numeric code of a cause (60_exceptions.md R331). -/
def FaultCause.code : FaultCause → Nat
  | .unimplementedInstruction => 1
  | .stackOverflow => 2
  | .stackUnderflow => 3
  | .fetchOutOfRange => 4
  | .dataAddressOutOfRange => 5

/-- The record's code field (R331, R335). -/
def FaultRecord.code (r : FaultRecord) : Nat := r.cause.code

/-- The state in which fault `cause` has been raised: the record is written, with the pc as it stands, and nothing else
changes (R335, R336). -/
def State.withFault (s : State) (cause : FaultCause) (opcode : Option Word) (addr : Option Nat) : State :=
  { s with fault := some ⟨cause, opcode, s.pc, addr⟩ }

/-- `raise F(info)`: the step ends at once, in the state that holds the record (R335; log 1). The ONE way a fault is
taken: DW and everything else stay as they were (R336). -/
def raise (cause : FaultCause) (opcode : Option Word) (addr : Option Nat) (s : State) : Result :=
  .next (s.withFault cause opcode addr)

/-- DataAddressOutOfRange at address `a`, raised by instruction `i` (R334). The opcode is the instruction's one
encoding (log 8). -/
def raiseDataAddress (i : Instr) (a : Nat) (s : State) : Result :=
  raise .dataAddressOutOfRange (some (encode i)) (some a) s

end Sys2Proof.Machine
end

