-- ==== Sys2Proof/Machine/Flags.lean ====
section
/-! DEFINITION. The flag values of the ALU instructions, each a byte 0 or 1 for VF (10_state.md R21; 42_load_alu.md
R207-R211, R216). All values are unsigned (00_scope.md R10). -/

namespace Sys2Proof.Machine

/-- A condition as the flag byte: 1 or 0. -/
def flag (c : Bool) : Byte := if c then 1#8 else 0#8

/-- The carry out of bit 7 of a sum, taken from the exact sum (R207). -/
def carryFlag (a b : Byte) : Byte := flag (decide (255 < a.toNat + b.toNat))

/-- Not borrow: 1 if and only if minuend >= subtrahend (R208, R210). -/
def notBorrowFlag (minuend subtrahend : Byte) : Byte := flag (decide (subtrahend.toNat ≤ minuend.toNat))

/-- Bit 0, the bit a right shift drops (R209). -/
def bit0Flag (b : Byte) : Byte := flag (b.getLsbD 0)

/-- Bit 7, the bit a left shift drops (R211). -/
def bit7Flag (b : Byte) : Byte := flag (b.getLsbD 7)

end Sys2Proof.Machine
end

