-- ==== Sys2Proof/Machine/Alu.lean ====
section
/-! DEFINITION. The register-register ALU, 8xy1 to 8xyE (42_load_alu.md R204-R211). Operands are read before the first
write (40_cycle.md R125), but for SUBN's flag. The flag is written last, so for x = 0xF it is what VF holds: the spec's
own decision (92_eei_decisions.md D10; UNVERIFIED, log 10). -/

namespace Sys2Proof.Machine

/-- The result goes to Vx, then the flag to VF (R125). -/
def State.writeResult (s : State) (x : Reg) (result flagByte : Byte) : State := (s.writeV x result).writeVF flagByte

/-- 8xy1 OR (R204): VF <- 0. -/
def execOr (x y : Reg) (s : State) : Result := complete false (s.writeResult x (s.readV x ||| s.readV y) 0#8)

/-- 8xy2 AND (R205): VF <- 0. -/
def execAnd (x y : Reg) (s : State) : Result := complete false (s.writeResult x (s.readV x &&& s.readV y) 0#8)

/-- 8xy3 XOR (R206): VF <- 0. -/
def execXor (x y : Reg) (s : State) : Result := complete false (s.writeResult x (s.readV x ^^^ s.readV y) 0#8)

/-- 8xy4 ADD (R207): VF <- the carry. -/
def execAddReg (x y : Reg) (s : State) : Result :=
  complete false (s.writeResult x (s.readV x + s.readV y) (carryFlag (s.readV x) (s.readV y)))

/-- 8xy5 SUB (R208): Vx <- Vx - Vy, VF <- not borrow of the values before the write. -/
def execSub (x y : Reg) (s : State) : Result :=
  complete false (s.writeResult x (s.readV x - s.readV y) (notBorrowFlag (s.readV x) (s.readV y)))

/-- 8xy6 SHR (R209): Vy is copied to Vx and shifted there; VF <- the bit shifted out. -/
def execShr (x y : Reg) (s : State) : Result :=
  let copied := s.writeV x (s.readV y)
  complete false (copied.writeResult x (copied.readV x >>> 1) (bit0Flag (s.readV y)))

/-- 8xy7 SUBN (R210): Vx <- Vy - Vx, and then VF <- not borrow of the registers as they are after that write, the
order the source reports. R217: the same state as with the values before the write. -/
def execSubn (x y : Reg) (s : State) : Result :=
  let written := s.writeV x (s.readV y - s.readV x)
  complete false (written.writeVF (notBorrowFlag (written.readV y) (written.readV x)))

/-- 8xyE SHL (R211): Vy is copied to Vx and shifted there; VF <- the bit shifted out. -/
def execShl (x y : Reg) (s : State) : Result :=
  let copied := s.writeV x (s.readV y)
  complete false (copied.writeResult x (copied.readV x <<< 1) (bit7Flag (s.readV y)))

end Sys2Proof.Machine
end

