-- ==== Sys2Proof/Machine/Operands.lean ====
section
/-! DEFINITION. The operand forms: what an instruction makes of its register and immediate fields before it computes
(30_encoding.md R92, R93; 43_display.md R251-R253; 44_keys_timers_misc.md R281, R290-R293). -/

namespace Sys2Proof.Machine

/-- `zext_16(nnn)` (R92). -/
def addressOf (nnn : Addr12) : Word := nnn.setWidth 16

/-- `zext_16(b)` of a byte. -/
def widen (b : Byte) : Word := b.setWidth 16

/-- `b[3:0]` as a key number: the low nibble of a register value (R93, R281). -/
def keyOf (b : Byte) : Key := regOf (b.extractLsb' 0 4)

/-- A key number as the byte Fx0A stores (R286). -/
def byteOfKey (k : Key) : Byte := BitVec.ofNat 8 k.val

/-- The digit Fx29 makes of a register value, under a setting of P_FONT_DIGIT (R290). -/
def fontDigitOf (p : FontDigit) (b : Byte) : Nat :=
  match p with
  | .lowNibble => b.toNat % 16
  | .fullByte => b.toNat

/-- The digit under the machine's own setting. The two settings agree up to 0xF, so the parameter is consulted only
above it (R290; log 2). -/
def fontDigit (b : Byte) : Nat := if b.toNat ≤ 0xF then b.toNat else fontDigitOf Config.fontDigit b

/-- The address of glyph `d`: FONT_BASE + GLYPH_HEIGHT * d (20_memory.md R63, R290). -/
def glyphAddress (d : Nat) : Word := BitVec.ofNat 16 (fontBase + glyphHeight * d)

/-- The registers V0..Vx, ascending (R93, R292). -/
def regsUpTo (x : Reg) : List Reg := ascending.filter (fun r => decide (r.val ≤ x.val))

/-- The start column, V[x] mod 64 (R251). -/
def startColumn (b : Byte) : Nat := b.toNat % 64

/-- The start row, V[y] mod 32 (R251). -/
def startRow (b : Byte) : Nat := b.toNat % 32

/-- The rows a draw draws: those below the plane are dropped (R250, R253). -/
def rowsDrawn (n : Nibble) (r0 : Nat) : Nat := min n.toNat (32 - r0)

/-- The three BCD digits of a byte, hundreds first (R291). `/` is unsigned and truncates. -/
def bcdDigits (b : Byte) : List Byte := [b / 100#8, (b / 10#8) % 10#8, b % 10#8]

end Sys2Proof.Machine
end

