-- ==== Sys2Proof/Machine/Display.lean ====
section
/-! DEFINITION. The sprite draw Dxyn, as the loops of 43_display.md R250 write it: XOR, clipped at the right and bottom
edges, with collision detection in VF. -/

namespace Sys2Proof.Machine

/-- The eight columns of a sprite row, from its most significant bit (R252). -/
def spriteColumns : List Nat := [0, 1, 2, 3, 4, 5, 6, 7]

/-- One sprite bit of 1 meets the pixel (c, r): a lit pixel sets VF, and the pixel is toggled (R250, R254). -/
def State.togglePixel (s : State) (c : Fin 64) (r : Fin 32) : State :=
  let noted := if s.pixel c r then s.writeVF 1#8 else s
  noted.setPixel c r (!s.pixel c r)

/-- The columns `cs` of the sprite row `b`, drawn on screen row `r` from column `c0`: bit 7 - c is column c0 + c, and
the first column off the plane ends the row (R252, R253). -/
def drawColumns (b : Byte) (c0 : Nat) (r : Fin 32) : List Nat → State → State
  | [], s => s
  | c :: cs, s =>
    if h : c0 + c < 64 then
      drawColumns b c0 r cs (if b.getLsbD (7 - c) then s.togglePixel ⟨c0 + c, h⟩ r else s)
    else s

/-- Sprite rows 0, ..., rows - 1, in that order: row k is the byte at I + k on screen row r0 + k (R250, R252). -/
def drawRows (c0 r0 : Nat) : Nat → State → State
  | 0, s => s
  | k + 1, s =>
    let above := drawRows c0 r0 k s
    if h : r0 + k < 32 then
      drawColumns (above.readMem (above.i.toNat + k)) c0 ⟨r0 + k, h⟩ spriteColumns above
    else above

/-- Dxyn DRW (R250): the coordinates are read before VF is reset (D12; UNVERIFIED, log 11); every address that would be
drawn is checked first (R255); a draw of no rows still resets VF and sets DW (R256). -/
def execDrw (x y : Reg) (n : Nibble) (s : State) : Result :=
  let c0 := startColumn (s.readV x)
  let r0 := startRow (s.readV y)
  let rows := rowsDrawn n r0
  match lowestBad s.i.toNat rows with
  | some a => raiseDataAddress (.drw x y n) a s
  | none => complete true (drawRows c0 r0 rows (s.writeVF 0#8))

end Sys2Proof.Machine
end

