-- ==== Sys2Proof/Machine/Flow.lean ====
section
/-! DEFINITION. Jumps, the call and the conditional skips (41_system_and_flow.md R154-R161). `s` is the state after the
fetch. -/

namespace Sys2Proof.Machine

/-- 1nnn JP (R154). -/
def execJp (nnn : Addr12) (s : State) : Result := complete false (s.setPc (addressOf nnn))

/-- Bnnn JP V0 (R155): the exact sum, not masked to 12 bits; it fits in 16 bits. -/
def execJpV0 (nnn : Addr12) (s : State) : Result :=
  complete false (s.setPc (addressOf nnn + widen (s.readV 0)))

/-- 2nnn CALL (R156): the pc after the CALL is pushed; SP = 16 raises StackOverflow. -/
def execCall (nnn : Addr12) (s : State) : Result :=
  match s.push s.pc with
  | none => raise .stackOverflow (some (encode (.call nnn))) none s
  | some s' => complete false (s'.setPc (addressOf nnn))

/-- 3xkk SE Vx, kk (R158). -/
def execSeImm (x : Reg) (kk : Byte) (s : State) : Result := complete false (s.skipIf (s.readV x == kk))

/-- 4xkk SNE Vx, kk (R159). -/
def execSneImm (x : Reg) (kk : Byte) (s : State) : Result := complete false (s.skipIf (s.readV x != kk))

/-- 5xy0 SE Vx, Vy (R160). -/
def execSeReg (x y : Reg) (s : State) : Result := complete false (s.skipIf (s.readV x == s.readV y))

/-- 9xy0 SNE Vx, Vy (R161). -/
def execSneReg (x y : Reg) (s : State) : Result := complete false (s.skipIf (s.readV x != s.readV y))

end Sys2Proof.Machine
end

