-- ==== Sys2Proof/Machine/Index.lean ====
section
/-! DEFINITION. The instructions on I and the memory it points to (44_keys_timers_misc.md R289-R293). Every bound is
checked before the first write (60_exceptions.md R336). -/

namespace Sys2Proof.Machine

/-- Fx1E ADD I, Vx (R289): modulo 2^16, without a flag. -/
def execAddIV (x : Reg) (s : State) : Result := complete false (s.setI (s.i + widen (s.readV x)))

/-- Fx29 LD F, Vx (R290). -/
def execLdFV (x : Reg) (s : State) : Result := complete false (s.setI (glyphAddress (fontDigit (s.readV x))))

/-- Fx33 LD B, Vx (R291): the BCD digits at I, I + 1, I + 2; I is unchanged. -/
def execLdBV (x : Reg) (s : State) : Result :=
  match lowestBad s.i.toNat 3 with
  | some a => raiseDataAddress (.ldBV x) a s
  | none => complete false { s with mem := s.mem.writeBytes s.i.toNat (bcdDigits (s.readV x)) }

/-- `I <- I + x + 1` modulo 2^16, after x + 1 registers (R292, R293). -/
def State.advanceI (s : State) (x : Reg) : State := s.setI (s.i + BitVec.ofNat 16 (x.val + 1))

/-- `MemWrite(base + r, 1, V[r])` for each of the registers, in order (R292). -/
def storeRegs (base : Nat) : List Reg → State → State
  | [], s => s
  | r :: rs, s => storeRegs base rs (s.writeMem (base + r.val) (s.readV r))

/-- `V[r] <- MemRead(base + r, 1)` for each of the registers, in order (R293). -/
def loadRegs (base : Nat) : List Reg → State → State
  | [], s => s
  | r :: rs, s => loadRegs base rs (s.writeV r (s.readMem (base + r.val)))

/-- Fx55 LD [I], Vx (R292): V0..Vx to I..I + x. -/
def execLdMemV (x : Reg) (s : State) : Result :=
  match lowestBad s.i.toNat (x.val + 1) with
  | some a => raiseDataAddress (.ldMemV x) a s
  | none => complete false ((storeRegs s.i.toNat (regsUpTo x) s).advanceI x)

/-- Fx65 LD Vx, [I] (R293): V0..Vx from I..I + x. -/
def execLdVMem (x : Reg) (s : State) : Result :=
  match lowestBad s.i.toNat (x.val + 1) with
  | some a => raiseDataAddress (.ldVMem x) a s
  | none => complete false ((loadRegs s.i.toNat (regsUpTo x) s).advanceI x)

end Sys2Proof.Machine
end

