-- ==== Sys2Proof/Machine/Keys.lean ====
section
/-! DEFINITION. The key skips and the key wait (44_keys_timers_misc.md R281, R282, R286). -/

namespace Sys2Proof.Machine

/-- Ex9E SKP (R281): a level test of the current keys. -/
def execSkp (x : Reg) (s : State) : Result := complete false (s.skipIf (s.key (keyOf (s.readV x))))

/-- ExA1 SKNP (R282). -/
def execSknp (x : Reg) (s : State) : Result := complete false (s.skipIf (!s.key (keyOf (s.readV x))))

/-- Fx0A LD Vx, K (R286): the lowest released key goes to Vx; with none, pc steps back to this instruction. Either way
the instruction has executed, so DW becomes 0 (40_cycle.md R126). -/
def execLdVK (x : Reg) (s : State) : Result :=
  match s.firstReleased with
  | some k => complete false (s.writeV x (byteOfKey k))
  | none => complete false (s.setPc (s.pc - 2#16))

end Sys2Proof.Machine
end

