-- ==== Sys2Proof/Machine/Loads.lean ====
section
/-! DEFINITION. The register loads, the add without carry, the index load and the random byte (42_load_alu.md R200,
R201, R203, R213-R215). None writes VF unless x = 0xF. -/

namespace Sys2Proof.Machine

/-- 6xkk LD Vx, kk (R200). -/
def execLdImm (x : Reg) (kk : Byte) (s : State) : Result := complete false (s.writeV x kk)

/-- 7xkk ADD Vx, kk (R201): wraps modulo 256, without a flag. -/
def execAddImm (x : Reg) (kk : Byte) (s : State) : Result := complete false (s.writeV x (s.readV x + kk))

/-- 8xy0 LD Vx, Vy (R203). -/
def execLdReg (x y : Reg) (s : State) : Result := complete false (s.writeV x (s.readV y))

/-- Annn LD I, nnn (R213). -/
def execLdI (nnn : Addr12) (s : State) : Result := complete false (s.setI (addressOf nnn))

/-- Cxkk RND Vx, kk (R214): exactly one draw, kk = 0 included (R215). -/
def execRnd (x : Reg) (kk : Byte) (s : State) : Result :=
  complete false (s.tookDraw.writeV x (s.nextDraw &&& kk))

end Sys2Proof.Machine
end

