-- ==== Sys2Proof/Machine/System.lean ====
section
/-! DEFINITION. Family 0x0: CLS, RET, SYS (41_system_and_flow.md R150-R153). In every meaning `s` is the state after
the fetch, so its pc is the instruction's address + 2 (10_state.md R23). -/

namespace Sys2Proof.Machine

/-- 00E0 CLS (R151): every pixel 0; VF is not written. -/
def execCls (s : State) : Result := complete false s.clearScreen

/-- 00EE RET (R152): the pc is popped; SP = 0 raises StackUnderflow. -/
def execRet (s : State) : Result :=
  match s.pop with
  | none => raise .stackUnderflow (some (encode .ret)) none s
  | some (t, s') => complete false (s'.setPc t)

/-- 0nnn SYS (R153, 30_encoding.md R98): a no-op; nnn is ignored. -/
def execSys (_nnn : Addr12) (s : State) : Result := complete false s

end Sys2Proof.Machine
end

