-- ==== Sys2Proof/Machine/Timers.lean ====
section
/-! DEFINITION. The timer moves (44_keys_timers_misc.md R285, R287, R288). -/

namespace Sys2Proof.Machine

/-- Fx07 LD Vx, DT (R285). -/
def execLdVDt (x : Reg) (s : State) : Result := complete false (s.writeV x s.dt)

/-- Fx15 LD DT, Vx (R287). -/
def execLdDtV (x : Reg) (s : State) : Result := complete false (s.setDt (s.readV x))

/-- Fx18 LD ST, Vx (R288). -/
def execLdStV (x : Reg) (s : State) : Result := complete false (s.setSt (s.readV x))

end Sys2Proof.Machine
end

