-- ==== Sys2Proof/Machine/Fetch.lean ====
section
/-! DEFINITION. Fetch, the two faults that come before any instruction runs, and where the host places a word for the
next fetch (40_cycle.md R121, R122, R124; 60_exceptions.md R332, R333). -/

namespace Sys2Proof.Machine

/-- The opcode at pc, high byte first; none where a byte of it would lie at 0x1000 or above (R121, R122). Any pc, even
or odd (20_memory.md R67). -/
def State.fetch (s : State) : Option Word :=
  if s.pc.toNat + 1 < memSize then some (opcodeOf (s.readMem s.pc.toNat) (s.readMem (s.pc.toNat + 1))) else none

/-- FetchOutOfRange (R122, R333): pc is not advanced, no opcode, and the first byte of it that lies out of range. -/
def raiseFetch (s : State) : Result := raise .fetchOutOfRange none (some (max s.pc.toNat memSize)) s

/-- UnimplementedInstruction (R124, R332), in the state after the fetch. -/
def raiseUnimplemented (op : Word) (s : State) : Result := raise .unimplementedInstruction (some op) none s

/-- Where the host's word goes: at pc, or at the program start where nothing can be fetched at pc (log 18). -/
def placePc (s : State) : Word := if s.pc.toNat + 1 < memSize then s.pc else BitVec.ofNat 16 progStart

/-- The machine with an opcode placed where the next step fetches it. A step fetches only without a fault record
(R127), so none is left. -/
def placeWord (s : State) (op : Word) : State :=
  { s with pc := placePc s, fault := none, mem := s.mem.writeBytes (placePc s).toNat (bytesOfWord op) }

end Sys2Proof.Machine
end

