-- ==== Sys2Proof/Machine/Step.lean ====
section
/-! DEFINITION. One step (40_cycle.md R120): the stored fault if there is one, else fetch, decode, execute. -/

namespace Sys2Proof.Machine

/-- `step()` (R120). With a fault record it stops and changes nothing (R127); otherwise it fetches (R121, R122), decodes
(R123) and executes (R124) in the state after the pc advance. A raise is a next state that holds the record (log 1). -/
def step (s : State) : Host.Outcome State Fault Refusal :=
  match s.fault with
  | some r => .fault (.stopped r)
  | none =>
    match s.fetch with
    | none => raiseFetch s
    | some op =>
      match decodeWord op with
      | .instr i => exec i s.advancePc
      | .rejected _ => raiseUnimplemented op s.advancePc

/-- `s` with the opcode-table word `w` of `nbits` bits where the next step fetches (log 18). -/
def State.withFetchWord (s : State) (nbits w : Nat) : State := placeWord s (tableWord nbits w)

end Sys2Proof.Machine
end

