-- ==== Sys2Proof/Machine/Commands.lean ====
section
/-! DEFINITION. The host's side of the CORE: every command of 60_exceptions.md R350, the run loop (R351) and the frame
(R352), reset() and loadRom (70_reset_and_hazards.md R390-R397). A command may come at any time: the order of a frame's
commands is the host's duty (R352, R354; log 5). -/

namespace Sys2Proof.Machine

/-- The state of all sixteen keys, as writeKeys takes it (R342). -/
abbrev Keypad := Vector Bool 16

/-- What loadRom is given (R350, R397). -/
inductive RomSource where
  /-- The file could not be read. -/
  | unreadable
  /-- The ROM's bytes: raw code without a header (R395). -/
  | bytes (image : List Byte)
deriving DecidableEq, Repr

/-- The commands of R350. -/
inductive Command where
  | reset
  | loadRom (src : RomSource) (path : String)
  | snapshotKeypad
  | writeKeys (pad : Keypad)
  | writeKey (k : Key) (down : Bool)
  | step
  | run (n : Nat)
  | tickTimers
  | readScreen
  | readDT
  | readST
  | writeDT (b : Byte)
  | writeST (b : Byte)
  | readDW
  | readFault
  | readRomLoaded
  | readRomPath
  | soundOn
deriving DecidableEq, Repr

/-- What a step returns to its caller: `ok` or `fault(record)` (40_cycle.md R120). -/
inductive StepReply where
  | ok
  | fault (r : FaultRecord)
deriving DecidableEq, Repr

/-- What a command returns (R350). -/
inductive Reply where
  /-- No result. -/
  | done
  | bool (b : Bool)
  | byte (b : Byte)
  | text (t : String)
  | count (k : Nat)
  | screen (plane : Screen)
  | stepped (r : StepReply)
  /-- The fault status: none or the record. -/
  | faultStatus (f : Option FaultRecord)
deriving DecidableEq, Repr

/-! ### Reset and ROM install -/

/-- `reset()` (R390): every piece of state at its value of R37, but for romLoaded and romPath, which stay (R392). The
random source and FONT are no state of the CORE (10_state.md R35): the draws taken stay counted (log 4), and FONT is what
it was (log 3). -/
def resetCore (s : State) : State :=
  { State.powerOn s.mem.font with romLoaded := s.romLoaded, romPath := s.romPath, rngDraws := s.rngDraws }

/-- The state after the ROM bytes are installed over a reset core (R396). -/
def installRom (image : List Byte) (path : String) (s : State) : State :=
  { resetCore s with
    mem := (resetCore s).mem.writeBytes progStart image
    romLoaded := true
    romPath := path }

/-- `loadRom(src, path)` (R396): unreadable or longer than ROM_MAX changes nothing and returns false (R353, R397). -/
def loadRom (src : RomSource) (path : String) (s : State) : State × Bool :=
  match src with
  | .unreadable => (s, false)
  | .bytes image => if romMax < image.length then (s, false) else (installRom image path s, true)

/-! ### Keypad and timers -/

/-- `snapshotKeypad()` (R343). -/
def snapshotKeypad (s : State) : State := { s with keysPrev := s.keys }

/-- `writeKeys(K)` (R342). -/
def writeKeys (pad : Keypad) (s : State) : State := { s with keys := pad }

/-- `writeKey(k, b)` (R342). -/
def writeKey (k : Key) (down : Bool) (s : State) : State := { s with keys := s.keys.set k.val down }

/-- One tick of one timer: minus 1 while above 0, never below (R346). -/
def tick (b : Byte) : Byte := if b = 0#8 then 0#8 else b - 1#8

/-- `tickTimers()` (R346): nothing while a fault is recorded (R337). -/
def tickTimers (s : State) : State :=
  match s.fault with
  | some _ => s
  | none => { s with dt := tick s.dt, st := tick s.st }

/-- The sound output: ST > 0 (R347). -/
def soundOn (s : State) : Bool := decide (0 < s.st.toNat)

/-! ### Stepping, running, a frame -/

/-- The state a step leaves: itself where the step stops (R127). -/
def stepState (s : State) : State :=
  match step s with
  | .next t => t
  | .fault _ => s
  | .refused _ => s

/-- What `step()` returns: the record of the state it leaves, if there is one (R120, R335). -/
def stepReply (s : State) : StepReply :=
  match (stepState s).fault with
  | none => .ok
  | some r => .fault r

/-- `run(n)` (R351), with the number of steps executed. DW is tested after each step and not before the first. -/
def run : Nat → State → State × Nat
  | 0, s => (s, 0)
  | n + 1, s =>
    if s.fault.isSome then (s, 0)
    else if (stepState s).fault.isSome || (stepState s).dw then (stepState s, 1)
    else ((run n (stepState s)).1, (run n (stepState s)).2 + 1)

/-- `frame(K, n)` (R352): snapshot, write keys, run, tick; with the number of steps executed. -/
def frame (pad : Keypad) (n : Nat) (s : State) : State × Nat :=
  let ran := run n (writeKeys pad (snapshotKeypad s))
  (tickTimers ran.1, ran.2)

/-! ### Every command as one function -/

/-- What a command does to the state and what it returns (R350). -/
def perform (c : Command) (s : State) : State × Reply :=
  match c with
  | .reset => (resetCore s, .done)
  | .loadRom src path => ((loadRom src path s).1, .bool (loadRom src path s).2)
  | .snapshotKeypad => (snapshotKeypad s, .done)
  | .writeKeys pad => (writeKeys pad s, .done)
  | .writeKey k down => (writeKey k down s, .done)
  | .step => (stepState s, .stepped (stepReply s))
  | .run n => ((run n s).1, .count (run n s).2)
  | .tickTimers => (tickTimers s, .done)
  | .readScreen => (s, .screen s.screen)
  | .readDT => (s, .byte s.dt)
  | .readST => (s, .byte s.st)
  | .writeDT b => (s.setDt b, .done)
  | .writeST b => (s.setSt b, .done)
  | .readDW => (s, .bool s.dw)
  | .readFault => (s, .faultStatus s.fault)
  | .readRomLoaded => (s, .bool s.romLoaded)
  | .readRomPath => (s, .text s.romPath)
  | .soundOn => (s, .bool (soundOn s))

/-- The commands of a list, one after the other (R350, R354): the state after the last. -/
def performAll : List Command → State → State
  | [], s => s
  | c :: cs, s => performAll cs (perform c s).1

end Sys2Proof.Machine
end

