-- ==== Sys2Proof/Safety.lean ====
section
/-! DEFINITION. The terms the claims are stated in, written from the spec's words and not from the meanings: the
invariant of every reachable state (10_state.md R39), who may write what (R22), the fault a step is due
(60_exceptions.md R331, R338), and the sprite bit that meets a pixel (43_display.md R250-R253). -/

namespace Sys2Proof.Machine

/-! ### The invariant -/

/-- What every reachable state satisfies beyond its types (10_state.md R25, R39): the pc and every stacked return
address stay in their ranges, and memory is in canonical form. -/
structure State.Inv (s : State) : Prop where
  /-- pc is in 0..0x10FE (R39). -/
  pc_le : s.pc.toNat ≤ 0x10FE
  /-- A stack slot holds 0 or a pc that a fetch produced, at most 0x1000 (R25). -/
  stack_le : ∀ j (h : j < 16), (s.stack[j]).toNat ≤ 0x1000
  /-- Memory is canonical (log 17). -/
  mem_wf : s.mem.wf = true

/-! ### What the next step executes -/

/-- The opcode in memory at pc (40_cycle.md R121). -/
def State.opcodeAtPc (s : State) : Word := opcodeOf (s.readMem s.pc.toNat) (s.readMem (s.pc.toNat + 1))

/-- The instruction that the next step executes is `i`: no fault is recorded, the opcode is in range, and it decodes to
`i` (R120-R124). -/
structure State.Fetches (s : State) (i : Instr) : Prop where
  running : s.fault = none
  inRange : s.pc.toNat ≤ 0xFFE
  decodes : decodeWord s.opcodeAtPc = .instr i

/-- How many rows DRW Vx, Vy, n draws: min(n, 32 - (V[y] mod 32)) (R250). -/
def State.drwRows (s : State) (y : Reg) (n : Nibble) : Nat := min n.toNat (32 - (s.readV y).toNat % 32)

/-- The number of bytes from I that an instruction accesses (20_memory.md R70). -/
def State.bytesAccessed (s : State) : Instr → Nat
  | .drw _ y n => s.drwRows y n
  | .ldBV _ => 3
  | .ldMemV x | .ldVMem x => x.val + 1
  | .cls | .ret | .sys _ | .jp _ | .call _ | .seImm _ _ | .sneImm _ _ | .seReg _ _ | .sneReg _ _ | .jpV0 _
  | .ldImm _ _ | .addImm _ _ | .ldReg _ _ | .orReg _ _ | .andReg _ _ | .xorReg _ _ | .addReg _ _ | .sub _ _
  | .shr _ _ | .subn _ _ | .shl _ _ | .ldI _ | .rnd _ _ | .skp _ | .sknp _ | .ldVDt _ | .ldVK _ | .ldDtV _
  | .ldStV _ | .addIV _ | .ldFV _ => 0

/-- Some byte the instruction would access lies at 0x1000 or above (R64). -/
def State.accessOutOfRange (s : State) (i : Instr) : Prop :=
  ∃ k, k < s.bytesAccessed i ∧ 0x1000 ≤ s.i.toNat + k

/-- The cause and address of the fault that instruction `i` is due by its own check, if any (R331, R338): the stack
checks, or the bounds of the bytes it accesses, where the address is the lowest bad one. -/
inductive State.Due (s : State) : Instr → FaultCause → Option Nat → Prop where
  | overflow (nnn : Addr12) (h : s.sp.val = 16) : s.Due (.call nnn) .stackOverflow none
  | underflow (h : s.sp.val = 0) : s.Due .ret .stackUnderflow none
  | bounds (i : Instr) (a k : Nat) (hk : k < s.bytesAccessed i) (ha : a = s.i.toNat + k) (hbad : 0x1000 ≤ a)
      (hlow : ∀ j, j < k → s.i.toNat + j < 0x1000) : s.Due i .dataAddressOutOfRange (some a)

/-! ### What an instruction leaves -/

/-- One register is written, and DW cleared; everything else is as before. -/
def WritesRegister (s t : State) (x : Reg) (b : Byte) : Prop :=
  t = { s with v := t.v, dw := false } ∧ t.readV x = b ∧ ∀ r, r ≠ x → t.readV r = s.readV r

/-- A result is written to Vx and then a flag to VF, and DW cleared; everything else is as before. For x = 0xF the flag
is what stays. -/
def WritesResultAndFlag (s t : State) (x : Reg) (result flagByte : Byte) : Prop :=
  t = { s with v := t.v, dw := false } ∧ t.readV Reg.f = flagByte ∧ (x ≠ Reg.f → t.readV x = result) ∧
    ∀ r, r ≠ x → r ≠ Reg.f → t.readV r = s.readV r

/-- pc is written, and DW cleared; everything else is as before. -/
def WritesPc (s t : State) (target : Nat) : Prop := t = { s with pc := t.pc, dw := false } ∧ t.pc.toNat = target

/-- The registers an instruction may write, by the table of 10_state.md R22. -/
def regsWritten : Instr → List Reg
  | .ldImm x _ | .addImm x _ | .ldReg x _ | .rnd x _ | .ldVDt x | .ldVK x => [x]
  | .orReg x _ | .andReg x _ | .xorReg x _ | .addReg x _ | .sub x _ | .shr x _ | .subn x _ | .shl x _ => [x, Reg.f]
  | .drw _ _ _ => [Reg.f]
  | .ldVMem x => (List.finRange 16).filter (fun r => decide (r ≤ x))
  | .cls | .ret | .sys _ | .jp _ | .call _ | .seImm _ _ | .sneImm _ _ | .seReg _ _ | .sneReg _ _ | .jpV0 _
  | .ldI _ | .skp _ | .sknp _ | .ldDtV _ | .ldStV _ | .addIV _ | .ldFV _ | .ldBV _ | .ldMemV _ => []

/-! ### Sprites -/

/-- The sprite bit that meets pixel (c, r) in a draw of `rows` rows from (c0, r0): bit 7 - (c - c0) of the byte at
I + (r - r0), for the columns c0..c0 + 7 and the rows r0..r0 + rows - 1; false off the sprite (43_display.md R252). -/
def State.spriteBit (s : State) (c0 r0 rows : Nat) (c : Fin 64) (r : Fin 32) : Bool :=
  decide (c0 ≤ c.val ∧ c.val < c0 + 8 ∧ r0 ≤ r.val ∧ r.val < r0 + rows) &&
    (s.readMem (s.i.toNat + (r.val - r0))).getLsbD (7 - (c.val - c0))

/-- The sprite bit that DRW Vx, Vy, n brings to pixel (c, r): the start wraps, the body is clipped (R251-R253). -/
def State.drwBit (s : State) (x y : Reg) (n : Nibble) (c : Fin 64) (r : Fin 32) : Bool :=
  s.spriteBit ((s.readV x).toNat % 64) ((s.readV y).toNat % 32) (s.drwRows y n) c r

end Sys2Proof.Machine
end

