-- ==== Sys2Proof/Certificates/Slice0/Obligations.lean ====
section
/-! DEFINITION. The statements for the provers. `s` in a statement about `exec` is the state after the fetch, so its pc is
the instruction's address + 2 (10_state.md R23). A record equation such as `t = { s with v := t.v, dw := false }` is a
frame: every field but the named ones, memory byte by byte included, is as before. -/

section Statements

open Sys2Proof Sys2Proof.Machine

/-! ### Encoding (30_encoding.md) -/

/-- R91, R96: every operand of every well-formed instruction, at every value, survives encoding and decoding. -/
def Obligations.DecodeOfEncodeIsTheInstruction : Prop :=
  ∀ i : Instr, i.wf = true → decodeWord (encode i) = .instr i

/-- R95, R99, R101: an opcode that decodes to an instruction is that instruction's one encoding, and the instruction is
well-formed. -/
def Obligations.EncodeOfDecodeIsTheOpcode : Prop :=
  ∀ (op : Word) (i : Instr), decodeWord op = .instr i → encode i = op ∧ i.wf = true

/-- R97: the opcodes that decode to no instruction are exactly those of its table, here as numbers: family op / 4096,
n = op mod 16, kk = op mod 256. The sub-codes, and n = 0 for families 5 and 9, are the spec's general knowledge and its
own choice (92 D9, D27; log 9, 14). -/
def Obligations.UnimplementedOpcodesAreExactlyTheTable : Prop :=
  ∀ op : Word, (∃ why, decodeWord op = .rejected why) ↔
    (op.toNat / 4096 = 5 ∧ op.toNat % 16 ≠ 0) ∨ (op.toNat / 4096 = 9 ∧ op.toNat % 16 ≠ 0) ∨
    (op.toNat / 4096 = 8 ∧ op.toNat % 16 ∈ [0x8, 0x9, 0xA, 0xB, 0xC, 0xD, 0xF]) ∨
    (op.toNat / 4096 = 14 ∧ op.toNat % 256 ∉ [0x9E, 0xA1]) ∨
    (op.toNat / 4096 = 15 ∧ op.toNat % 256 ∉ [0x07, 0x0A, 0x15, 0x18, 0x1E, 0x29, 0x33, 0x55, 0x65])

/-- R96: ten opcodes written out from the patterns decode to the instructions they stand for, and two to none. The
sub-codes are the spec's general knowledge (D27, log 9). -/
def Obligations.SampleOpcodesDecodeAsThePatternsSay : Prop :=
  decodeWord 0x00E0#16 = .instr .cls ∧ decodeWord 0x00E1#16 = .instr (.sys 0x0E1#12) ∧
  decodeWord 0x1ABC#16 = .instr (.jp 0xABC#12) ∧ decodeWord 0x37C5#16 = .instr (.seImm 7 0xC5#8) ∧
  decodeWord 0x8A37#16 = .instr (.subn 10 3) ∧ decodeWord 0x8A3E#16 = .instr (.shl 10 3) ∧
  decodeWord 0xC30F#16 = .instr (.rnd 3 0x0F#8) ∧ decodeWord 0xD12B#16 = .instr (.drw 1 2 0xB#4) ∧
  decodeWord 0xE2A1#16 = .instr (.sknp 2) ∧ decodeWord 0xFC65#16 = .instr (.ldVMem 12) ∧
  decodeWord 0x5121#16 = .rejected .family5 ∧ decodeWord 0x801F#16 = .rejected .family8

/-! ### The step (40_cycle.md, 60_exceptions.md) -/

/-- R120, R121, R123, R124: when no fault is recorded and the two bytes at pc, high byte first, decode to `i`, the step
is `exec i` at the state with pc + 2, and `i` is well-formed. -/
def Obligations.StepExecutesTheDecodedInstruction : Prop :=
  ∀ (s : State) (i : Instr), s.Fetches i → i.wf = true ∧ step s = exec i { s with pc := s.pc + 2#16 }

/-- R332, R336: executing an unimplemented opcode records UnimplementedInstruction with the raw opcode and the pc after
the fetch, and changes nothing else but the pc's advance. The record's form and the fault's precision are the spec's own
choices (D7, D8, log 14). -/
def Obligations.UnimplementedOpcodeIsRecorded : Prop :=
  ∀ (s : State) (why : DecodeError), s.fault = none → s.pc.toNat ≤ 0xFFE →
    decodeWord s.opcodeAtPc = .rejected why →
    step s = .next { s with
      pc := s.pc + 2#16
      fault := some ⟨.unimplementedInstruction, some s.opcodeAtPc, s.pc + 2#16, none⟩ }

/-- R122, R333: a step that begins with pc > 0xFFE records FetchOutOfRange with the pc as it is, no opcode and the
address max(pc, 0x1000), and changes nothing else. The fault is the spec's own choice (D3, log 14). -/
def Obligations.FetchBeyondMemoryIsRecorded : Prop :=
  ∀ s : State, s.fault = none → 0xFFE < s.pc.toNat →
    step s = .next { s with fault := some ⟨.fetchOutOfRange, none, s.pc, some (max s.pc.toNat 0x1000)⟩ }

/-- R127: with a fault recorded, the step stops with that record; as a command it changes nothing and returns the stored
fault. Stickiness is the spec's own choice (D7); the outcome `stopped` is the model's (log 1). -/
def Obligations.FaultedMachineExecutesNothing : Prop :=
  ∀ (s : State) (r : FaultRecord), s.fault = some r →
    step s = .fault (.stopped r) ∧ perform .step s = (s, .stepped (.fault r))

/-- R357 and the model's form of a raise (log 1): the machine answers a next state exactly when no fault is recorded,
whatever the opcode, and it never refuses. -/
def Obligations.StepGoesOnExactlyWithoutAFault : Prop :=
  ∀ s : State, ((∃ t, step s = .next t) ↔ s.fault = none) ∧ ∀ q, step s ≠ .refused q

/-- R331, R338: a step of a decoded instruction records a fault exactly when its own check is due (a full stack for
CALL, an empty one for RET, a byte at 0x1000 or above for the four memory instructions), and the record is R331's: the
cause, the opcode that was fetched, the pc after the fetch, and the lowest bad address. These faults are the spec's own
choice (D2, D5, D8, log 14). -/
def Obligations.FaultsOfInstructionsAreExactlyThoseDue : Prop :=
  ∀ (s t : State) (i : Instr), s.Fetches i → step s = .next t →
    (t.fault = none ↔ ¬ ∃ c a, s.Due i c a) ∧
    ∀ c a, s.Due i c a → t.fault = some ⟨c, some s.opcodeAtPc, s.pc + 2#16, a⟩

/-- R336: a step that faults leaves every piece of state as it was after the fetch's pc advance, except the fault
record; for FetchOutOfRange there is no advance. The spec's own choice (D7, log 14). -/
def Obligations.FaultsArePrecise : Prop :=
  ∀ (s t : State) (r : FaultRecord), s.fault = none → step s = .next t → t.fault = some r →
    (s.pc.toNat ≤ 0xFFE → t = { s with pc := s.pc + 2#16, fault := some r }) ∧
    (0xFFE < s.pc.toNat → t = { s with fault := some r })

/-- R126: DW after a step that completes is 1 exactly if the opcode's family is 0xD; a faulting step leaves DW as it was
(for that clause D17). -/
def Obligations.DisplayWaitFollowsTheExecutedOpcode : Prop :=
  ∀ s t : State, s.fault = none → step s = .next t →
    (t.fault = none → (t.dw = true ↔ s.opcodeAtPc.toNat / 4096 = 0xD)) ∧ (t.fault ≠ none → t.dw = s.dw)

/-! ### Family 0x0, jumps, call, skips (41_system_and_flow.md) -/

/-- R151, R153: CLS makes every pixel 0, SYS changes nothing, for every nnn; neither writes VF or anything else. -/
def Obligations.ClsClearsTheDisplayAndSysDoesNothing : Prop :=
  (∀ s : State, ∃ t, exec .cls s = .next t ∧ (∀ c r, t.pixel c r = false) ∧
    t = { s with screen := t.screen, dw := false }) ∧
  ∀ (s : State) (nnn : Addr12), ∃ t, exec (.sys nnn) s = .next t ∧ t = { s with dw := false }

/-- R154: JP nnn sets pc to nnn and writes nothing else. -/
def Obligations.JpSetsPc : Prop :=
  ∀ (s : State) (nnn : Addr12), ∃ t, exec (.jp nnn) s = .next t ∧ WritesPc s t nnn.toNat

/-- R155: JP V0, nnn sets pc to the exact sum nnn + V0, which is not masked to 12 bits: the spec's own choice (D16,
log 13). -/
def Obligations.JpV0AddsExactly : Prop :=
  ∀ (s : State) (nnn : Addr12), ∃ t, exec (.jpV0 nnn) s = .next t ∧ WritesPc s t (nnn.toNat + (s.readV 0).toNat)

/-- R156: CALL below depth 16 writes the pc into stack[SP], counts it and jumps; no other slot changes. The stack
discipline is the spec's own choice (D6, log 13). -/
def Obligations.CallPushesTheReturnAddress : Prop :=
  ∀ (s : State) (nnn : Addr12) (h : s.sp.val < 16), ∃ t, exec (.call nnn) s = .next t ∧
    t.pc.toNat = nnn.toNat ∧ t.sp.val = s.sp.val + 1 ∧ t.stack[s.sp.val] = s.pc ∧
    (∀ j (hj : j < 16), j ≠ s.sp.val → t.stack[j] = s.stack[j]) ∧
    t = { s with pc := t.pc, stack := t.stack, sp := t.sp, dw := false }

/-- R152: RET above depth 0 takes SP down by one and pc from stack[SP]; the slot keeps its value. The stack discipline
is the spec's own choice (D6, log 13). -/
def Obligations.RetPopsTheReturnAddress : Prop :=
  ∀ (s : State) (h : 0 < s.sp.val), ∃ t, exec .ret s = .next t ∧
    t.pc = s.stack[s.sp.val - 1]'(by omega) ∧ t.sp.val + 1 = s.sp.val ∧
    t = { s with pc := t.pc, sp := t.sp, dw := false }

/-- R152, R156, R331: CALL at depth 16 and RET at depth 0 record StackOverflow and StackUnderflow, with the opcode and
the pc after the fetch, and change nothing else. The spec's own choice (D5, log 14). -/
def Obligations.StackLimitsAreRecorded : Prop :=
  (∀ (s : State) (nnn : Addr12), s.sp = 16 → exec (.call nnn) s = .next { s with
    fault := some ⟨.stackOverflow, some (BitVec.ofNat 16 (0x2000 + nnn.toNat)), s.pc, none⟩ }) ∧
  ∀ s : State, s.sp = 0 → exec .ret s = .next { s with fault := some ⟨.stackUnderflow, some 0x00EE#16, s.pc, none⟩ }

/-- R27, R152, R156: a RET executed at the state a CALL leaves comes back to the instruction after the CALL, at the same
depth, with everything but one stack slot and DW as before the CALL. That the slot is stack[SP] is the stack discipline,
the spec's own choice (D6, log 13). -/
def Obligations.RetUndoesCall : Prop :=
  ∀ (s : State) (nnn : Addr12), s.sp.val < 16 → ∃ t u, exec (.call nnn) s = .next t ∧ exec .ret t = .next u ∧
    u = { s with stack := u.stack, dw := false } ∧ ∀ j (hj : j < 16), j ≠ s.sp.val → u.stack[j] = s.stack[j]

/-- R158-R161: the four register skips add 2 to pc exactly when Vx = kk, Vx ≠ kk, Vx = Vy, Vx ≠ Vy, and write nothing
else; x = y is included, and the skipped word is not looked at. Which family is which skip is the spec's general
knowledge (D27, log 9). -/
def Obligations.RegisterSkipsTestEquality : Prop :=
  (∀ (s : State) (x : Reg) (kk : Byte), ∃ t, exec (.seImm x kk) s = .next t ∧
    t = { s with pc := t.pc, dw := false } ∧ t.pc = if s.readV x = kk then s.pc + 2#16 else s.pc) ∧
  (∀ (s : State) (x : Reg) (kk : Byte), ∃ t, exec (.sneImm x kk) s = .next t ∧
    t = { s with pc := t.pc, dw := false } ∧ t.pc = if s.readV x = kk then s.pc else s.pc + 2#16) ∧
  (∀ (s : State) (x y : Reg), ∃ t, exec (.seReg x y) s = .next t ∧
    t = { s with pc := t.pc, dw := false } ∧ t.pc = if s.readV x = s.readV y then s.pc + 2#16 else s.pc) ∧
  ∀ (s : State) (x y : Reg), ∃ t, exec (.sneReg x y) s = .next t ∧
    t = { s with pc := t.pc, dw := false } ∧ t.pc = if s.readV x = s.readV y then s.pc else s.pc + 2#16

/-! ### Loads and ALU (42_load_alu.md) -/

/-- R200: LD Vx, kk writes kk to Vx and nothing else; VF is not written unless x = 0xF. -/
def Obligations.LdImmWritesOneRegister : Prop :=
  ∀ (s : State) (x : Reg) (kk : Byte), ∃ t, exec (.ldImm x kk) s = .next t ∧ WritesRegister s t x kk

/-- R203: LD Vx, Vy copies Vy to Vx and writes nothing else. That VF is not written unless x = 0xF is the spec's own
choice (D35, log 13). -/
def Obligations.LdRegCopiesOneRegister : Prop :=
  ∀ (s : State) (x y : Reg), ∃ t, exec (.ldReg x y) s = .next t ∧ WritesRegister s t x (s.readV y)

/-- R201: ADD Vx, kk wraps modulo 256 and sets no flag. That VF is not written unless x = 0xF is the spec's own choice
(D35, log 13). -/
def Obligations.AddImmWrapsWithoutAFlag : Prop :=
  ∀ (s : State) (x : Reg) (kk : Byte), ∃ t, exec (.addImm x kk) s = .next t ∧
    WritesRegister s t x (BitVec.ofNat 8 (((s.readV x).toNat + kk.toNat) % 256))

/-- R204-R206: OR, AND and XOR write the result to Vx, bit by bit from the old values, and then 0 to VF, x = 0xF
included. That the flag write comes last is the spec's own choice (D10, log 10). -/
def Obligations.LogicalOpsResetVf : Prop :=
  ∀ (s : State) (x y : Reg),
    (∃ t, exec (.orReg x y) s = .next t ∧ WritesResultAndFlag s t x (s.readV x ||| s.readV y) 0#8) ∧
    (∃ t, exec (.andReg x y) s = .next t ∧ WritesResultAndFlag s t x (s.readV x &&& s.readV y) 0#8) ∧
    ∃ t, exec (.xorReg x y) s = .next t ∧ WritesResultAndFlag s t x (s.readV x ^^^ s.readV y) 0#8

/-- R207: ADD Vx, Vy leaves the sum modulo 256 in Vx and 1 in VF exactly if the exact sum exceeds 255, else 0; all
values from before the write. That the flag stays for x = 0xF, and that no carry gives 0, are the spec's own choices
(D10, D36, log 10, 13). -/
def Obligations.AddRegCarries : Prop :=
  ∀ (s : State) (x y : Reg), ∃ t, exec (.addReg x y) s = .next t ∧
    WritesResultAndFlag s t x (BitVec.ofNat 8 (((s.readV x).toNat + (s.readV y).toNat) % 256))
      (if 255 < (s.readV x).toNat + (s.readV y).toNat then 1#8 else 0#8)

/-- R208: SUB leaves Vx - Vy modulo 256 in Vx and 1 in VF exactly if Vx >= Vy before the write. That the flag stays for
x = 0xF is the spec's own choice (D10, log 10). -/
def Obligations.SubSetsNotBorrow : Prop :=
  ∀ (s : State) (x y : Reg), ∃ t, exec (.sub x y) s = .next t ∧
    WritesResultAndFlag s t x (BitVec.ofNat 8 ((256 + (s.readV x).toNat - (s.readV y).toNat) % 256))
      (if (s.readV y).toNat ≤ (s.readV x).toNat then 1#8 else 0#8)

/-- R210, R217: SUBN, whose flag is computed from the registers after the write, leaves for every x, y and value what
the values before the write give: Vy - Vx modulo 256 and 1 in VF exactly if Vy >= Vx. The order of the two writes is the
spec's own choice (D10, D11, log 10). -/
def Obligations.SubnOrderMakesNoDifference : Prop :=
  ∀ (s : State) (x y : Reg), ∃ t, exec (.subn x y) s = .next t ∧
    WritesResultAndFlag s t x (BitVec.ofNat 8 ((256 + (s.readV y).toNat - (s.readV x).toNat) % 256))
      (if (s.readV x).toNat ≤ (s.readV y).toNat then 1#8 else 0#8)

/-- R209, R211: SHR and SHL shift the old Vy, never the old Vx, into Vx and leave the bit shifted out in VF. That the
flag stays for x = 0xF is the spec's own choice (D10, log 10). -/
def Obligations.ShiftsCopyVyFirst : Prop :=
  ∀ (s : State) (x y : Reg),
    (∃ t, exec (.shr x y) s = .next t ∧
      WritesResultAndFlag s t x (BitVec.ofNat 8 ((s.readV y).toNat / 2)) (BitVec.ofNat 8 ((s.readV y).toNat % 2))) ∧
    ∃ t, exec (.shl x y) s = .next t ∧
      WritesResultAndFlag s t x (BitVec.ofNat 8 (2 * (s.readV y).toNat % 256))
        (BitVec.ofNat 8 ((s.readV y).toNat / 128))

/-- R213: LD I, nnn sets I to nnn and writes nothing else. -/
def Obligations.LdISetsTheIndex : Prop :=
  ∀ (s : State) (nnn : Addr12), ∃ t, exec (.ldI nnn) s = .next t ∧ t.i.toNat = nnn.toNat ∧
    t = { s with i := t.i, dw := false }

/-- R214, R215: RND takes exactly one draw, whatever kk is, and writes the drawn byte AND kk to Vx. The byte is the free
value `Config.rngByte` at the draw's number (D23, log 4). That VF is not written unless x = 0xF is the spec's own choice
(D35, log 13). -/
def Obligations.RndTakesOneDraw : Prop :=
  ∀ (s : State) (x : Reg) (kk : Byte), ∃ t, exec (.rnd x kk) s = .next t ∧
    t = { s with v := t.v, rngDraws := s.rngDraws + 1, dw := false } ∧
    t.readV x = (Config.rngByte s.rngDraws &&& kk) ∧ ∀ r, r ≠ x → t.readV r = s.readV r

/-! ### The draw (43_display.md) -/

/-- R250-R254, R256, R257: a draw whose bytes are in range XORs each pixel with the sprite bit that meets it and leaves 1
in VF exactly if a 1 met a lit pixel, else 0. It sets DW and writes nothing else; n = 0 and x or y = 0xF are included.
Most significant bit left (general knowledge, D32) and coordinates before the VF reset (D12) are the spec's own
(log 11, 13). -/
def Obligations.DrwXorsTheClippedSprite : Prop :=
  ∀ (s : State) (x y : Reg) (n : Nibble), ¬ s.accessOutOfRange (.drw x y n) → ∃ t, exec (.drw x y n) s = .next t ∧
    (∀ c r, t.pixel c r = (s.pixel c r ^^ s.drwBit x y n c r)) ∧
    (t.readV Reg.f = if ∃ c r, s.drwBit x y n c r = true ∧ s.pixel c r = true then 1#8 else 0#8) ∧
    (∀ r, r ≠ Reg.f → t.readV r = s.readV r) ∧ t = { s with v := t.v, screen := t.screen, dw := true }

/-- R256: DRW with n = 0 resets VF, sets DW and changes nothing else, whatever I is; a non-zero n draws at least one
row. -/
def Obligations.DrwOfHeightZeroDrawsNothing : Prop :=
  (∀ (s : State) (x y : Reg), ∃ t, exec (.drw x y 0#4) s = .next t ∧ t.readV Reg.f = 0#8 ∧
    (∀ r, r ≠ Reg.f → t.readV r = s.readV r) ∧ t = { s with v := t.v, dw := true }) ∧
  ∀ (s : State) (y : Reg) (n : Nibble), n ≠ 0#4 → 0 < s.drwRows y n

/-- R250, R254: the same sprite drawn twice at the same place gives the plane back, and the second draw reports a
collision exactly if the first one lit a pixel. VF may be no coordinate here, since the first draw writes it;
`DrwXorsTheClippedSprite` covers every form. Which bit of the sprite meets a pixel is the spec's general knowledge (D32,
log 13), and that the bytes of clipped rows are not read is its own choice (D12, log 11). -/
def Obligations.DrawingTwiceRestoresThePlane : Prop :=
  ∀ (s : State) (x y : Reg) (n : Nibble), x ≠ Reg.f → y ≠ Reg.f → ¬ s.accessOutOfRange (.drw x y n) →
    ∃ t u, exec (.drw x y n) s = .next t ∧ exec (.drw x y n) t = .next u ∧
      (∀ c r, u.pixel c r = s.pixel c r) ∧
      (u.readV Reg.f = 1#8 ↔ ∃ c r, s.drwBit x y n c r = true ∧ s.pixel c r = false)

/-! ### Keys, timers, index and memory (44_keys_timers_misc.md) -/

/-- R281, R282: SKP and SKNP test the current key whose number is Vx modulo 16, a level and not an edge, and write
nothing but pc. -/
def Obligations.KeySkipsTestTheCurrentKey : Prop :=
  (∀ (s : State) (x : Reg), ∃ t, exec (.skp x) s = .next t ∧ t = { s with pc := t.pc, dw := false } ∧
    t.pc = if s.keys[(s.readV x).toNat % 16]'(Nat.mod_lt _ (by decide)) then s.pc + 2#16 else s.pc) ∧
  ∀ (s : State) (x : Reg), ∃ t, exec (.sknp x) s = .next t ∧ t = { s with pc := t.pc, dw := false } ∧
    t.pc = if s.keys[(s.readV x).toNat % 16]'(Nat.mod_lt _ (by decide)) then s.pc else s.pc + 2#16

/-- R286: with a key pressed in the snapshot and not now, and no lower such key, Fx0A writes that key's number to Vx and
goes on. That the lowest key wins is the spec's own choice (D13, log 12). -/
def Obligations.KeyWaitStoresTheLowestReleasedKey : Prop :=
  ∀ (s : State) (x : Reg) (k : Key), s.keysPrev[k.val] = true → s.keys[k.val] = false →
    (∀ j : Key, j < k → s.keysPrev[j.val] = true → s.keys[j.val] = true) →
    ∃ t, exec (.ldVK x) s = .next t ∧ WritesRegister s t x (BitVec.ofNat 8 k.val)

/-- R286: while no key goes from pressed to released, a step of Fx0A leaves everything, pc included, as it was, but
clears DW: the same instruction executes again. -/
def Obligations.KeyWaitRepeatsUntilARelease : Prop :=
  ∀ (s : State) (x : Reg), s.Fetches (.ldVK x) →
    (∀ k : Key, s.keysPrev[k.val] = true → s.keys[k.val] = true) → step s = .next { s with dw := false }

/-- R285, R287, R288: Fx07 writes DT to Vx; Fx15 and Fx18 write Vx to DT and ST, after which one tick leaves Vx - 1, or
0 for 0, and the sound is on while ST > 0. That Fx07 does not write VF unless x = 0xF is the spec's own choice (D35,
log 13). -/
def Obligations.TimerMovesCopyAByte : Prop :=
  (∀ (s : State) (x : Reg), ∃ t, exec (.ldVDt x) s = .next t ∧ WritesRegister s t x s.dt) ∧
  (∀ (s : State) (x : Reg), ∃ t, exec (.ldDtV x) s = .next t ∧ t = { s with dt := s.readV x, dw := false } ∧
    (s.fault = none → (tickTimers t).dt.toNat = (s.readV x).toNat - 1)) ∧
  ∀ (s : State) (x : Reg), ∃ t, exec (.ldStV x) s = .next t ∧ t = { s with st := s.readV x, dw := false } ∧
    (s.fault = none → (tickTimers t).st.toNat = (s.readV x).toNat - 1) ∧
    (soundOn t = true ↔ 0 < (s.readV x).toNat)

/-- R289: Fx1E adds Vx to I modulo 2^16 and writes no flag: the spec's own choice (D15, log 13). -/
def Obligations.AddIndexWrapsWithoutAFlag : Prop :=
  ∀ (s : State) (x : Reg), ∃ t, exec (.addIV x) s = .next t ∧
    t.i.toNat = (s.i.toNat + (s.readV x).toNat) % 65536 ∧ t = { s with i := t.i, dw := false }

/-- R290: Fx29 sets I to 0x50 + 5 * digit, where the digit is what the parameter P_FONT_DIGIT says: Vx mod 16 or Vx,
which agree up to 0xF. No setting is assumed (log 2). -/
def Obligations.FontAddressUnderEachSetting : Prop :=
  ∀ (s : State) (x : Reg), ∃ t, exec (.ldFV x) s = .next t ∧ t = { s with i := t.i, dw := false } ∧
    t.i.toNat = 0x50 + 5 * (match Config.fontDigit with
      | .lowNibble => (s.readV x).toNat % 16
      | .fullByte => (s.readV x).toNat) ∧
    ((s.readV x).toNat ≤ 0xF → t.i.toNat = 0x50 + 5 * (s.readV x).toNat)

/-- R291: Fx33 with I + 2 in range stores the decimal digits of Vx at I, I + 1, I + 2, and changes no other byte and
nothing else. Hundreds at the lowest address is the spec's general knowledge (D33, log 13). -/
def Obligations.BcdStoresThreeDigits : Prop :=
  ∀ (s : State) (x : Reg), s.i.toNat + 2 < 0x1000 → ∃ t, exec (.ldBV x) s = .next t ∧
    (t.readMem s.i.toNat).toNat = (s.readV x).toNat / 100 ∧
    (t.readMem (s.i.toNat + 1)).toNat = (s.readV x).toNat / 10 % 10 ∧
    (t.readMem (s.i.toNat + 2)).toNat = (s.readV x).toNat % 10 ∧
    (∀ a, (a < s.i.toNat ∨ s.i.toNat + 2 < a) → t.readMem a = s.readMem a) ∧
    t = { s with mem := t.mem, dw := false }

/-- R292: Fx55 with I + x in range stores V0..Vx at I..I + x, changes no other byte, adds x + 1 to I and changes nothing
else. The range and the increment are the spec's general knowledge (D34, log 13). -/
def Obligations.StoreRegsWritesTheBlock : Prop :=
  ∀ (s : State) (x : Reg), s.i.toNat + x.val < 0x1000 → ∃ t, exec (.ldMemV x) s = .next t ∧
    (∀ r, r ≤ x → t.readMem (s.i.toNat + r.val) = s.readV r) ∧
    (∀ a, (a < s.i.toNat ∨ s.i.toNat + x.val < a) → t.readMem a = s.readMem a) ∧
    t.i.toNat = s.i.toNat + x.val + 1 ∧ t = { s with mem := t.mem, i := t.i, dw := false }

/-- R293: Fx65 with I + x in range loads V0..Vx from I..I + x, writes no other register, adds x + 1 to I and changes
nothing else, no byte of memory included. The range and the increment are the spec's general knowledge (D34, log 13). -/
def Obligations.LoadRegsReadsTheBlock : Prop :=
  ∀ (s : State) (x : Reg), s.i.toNat + x.val < 0x1000 → ∃ t, exec (.ldVMem x) s = .next t ∧
    (∀ r, r ≤ x → t.readV r = s.readMem (s.i.toNat + r.val)) ∧ (∀ r, x < r → t.readV r = s.readV r) ∧
    t.i.toNat = s.i.toNat + x.val + 1 ∧ t = { s with v := t.v, i := t.i, dw := false }

/-- R292, R293: what Fx55 stored, Fx65 with the same I loads back, from any state with that memory. The register range
is the spec's general knowledge (D34, log 13). -/
def Obligations.LoadAfterStoreGivesTheRegistersBack : Prop :=
  ∀ (s u : State) (x : Reg), s.i.toNat + x.val < 0x1000 → ∃ t, exec (.ldMemV x) s = .next t ∧
    (u.mem = t.mem → u.i = s.i → ∃ w, exec (.ldVMem x) u = .next w ∧ w.i = t.i ∧
      ∀ r, r ≤ x → w.readV r = s.readV r)

/-- R64, R255, R291-R293, R334, R336: each of the four memory instructions, where one of its bytes would lie at 0x1000 or
above, records DataAddressOutOfRange with its opcode, the pc after the fetch and the address max(I, 0x1000), and changes
nothing else. Faulting is the spec's own choice (D2, log 14). -/
def Obligations.DataAccessBeyondMemoryIsRecorded : Prop :=
  (∀ (s : State) (x y : Reg) (n : Nibble), s.accessOutOfRange (.drw x y n) → exec (.drw x y n) s = .next { s with
    fault := some ⟨.dataAddressOutOfRange, some (BitVec.ofNat 16 (0xD000 + 256 * x.val + 16 * y.val + n.toNat)), s.pc,
      some (max s.i.toNat 0x1000)⟩ }) ∧
  (∀ (s : State) (x : Reg), 0x1000 ≤ s.i.toNat + 2 → exec (.ldBV x) s = .next { s with
    fault := some ⟨.dataAddressOutOfRange, some (BitVec.ofNat 16 (0xF033 + 256 * x.val)), s.pc,
      some (max s.i.toNat 0x1000)⟩ }) ∧
  (∀ (s : State) (x : Reg), 0x1000 ≤ s.i.toNat + x.val → exec (.ldMemV x) s = .next { s with
    fault := some ⟨.dataAddressOutOfRange, some (BitVec.ofNat 16 (0xF055 + 256 * x.val)), s.pc,
      some (max s.i.toNat 0x1000)⟩ }) ∧
  ∀ (s : State) (x : Reg), 0x1000 ≤ s.i.toNat + x.val → exec (.ldVMem x) s = .next { s with
    fault := some ⟨.dataAddressOutOfRange, some (BitVec.ofNat 16 (0xF065 + 256 * x.val)), s.pc,
      some (max s.i.toNat 0x1000)⟩ }

/-- R74, R401: two registers stored by Fx55 are the opcode that any later fetch at their address finds. The register
range is the spec's general knowledge (D34, log 13). -/
def Obligations.StoredBytesAreFetched : Prop :=
  ∀ (s u : State) (x r q : Reg), s.i.toNat + x.val < 0x1000 → q.val = r.val + 1 → q ≤ x →
    ∃ t, exec (.ldMemV x) s = .next t ∧
      (u.mem = t.mem → u.pc.toNat = s.i.toNat + r.val → u.opcodeAtPc = opcodeOf (s.readV r) (s.readV q))

/-! ### The whole machine -/

/-- R29, R31: no instruction writes the keypad arrays or the ROM status. -/
def Obligations.NoInstructionWritesKeysOrRomStatus : Prop :=
  ∀ (i : Instr) (s t : State), exec i s = .next t →
    t.keys = s.keys ∧ t.keysPrev = s.keysPrev ∧ t.romLoaded = s.romLoaded ∧ t.romPath = s.romPath

/-- R22: an instruction writes no register but those of the operand table. That VF is left alone by 7xkk, 8xy0, Cxkk,
Fx07 and Fx1E, and that Fx65 writes V0..Vx, are the spec's own choices (D35, D34, log 13). -/
def Obligations.OnlyTheTablesRegistersAreWritten : Prop :=
  ∀ (i : Instr) (s t : State), exec i s = .next t → ∀ r, r ∉ regsWritten i → t.readV r = s.readV r

/-- R70: only Fx33 and Fx55 write memory, and no instruction changes the parameter FONT. That FONT is carried by the
memory is the model's own form (log 3). -/
def Obligations.OnlyTheTwoStoresWriteMemory : Prop :=
  ∀ (i : Instr) (s t : State), exec i s = .next t →
    t.mem.font = s.mem.font ∧ ((∀ x, i ≠ .ldBV x) → (∀ x, i ≠ .ldMemV x) → t.mem = s.mem)

/-- R28, R30: only Dxyn and 00E0 write the plane, only Fx15 writes DT and only Fx18 writes ST. -/
def Obligations.OnlyTheNamedInstructionsWriteDisplayAndTimers : Prop :=
  ∀ (i : Instr) (s t : State), exec i s = .next t →
    ((∀ x y n, i ≠ .drw x y n) → i ≠ .cls → t.screen = s.screen) ∧
    ((∀ x, i ≠ .ldDtV x) → t.dt = s.dt) ∧ ((∀ x, i ≠ .ldStV x) → t.st = s.st)

/-- R26, R27: only 2nnn and 00EE write the stack and SP; only Annn, Fx1E, Fx29, Fx55 and Fx65 write I. -/
def Obligations.OnlyTheNamedInstructionsWriteStackAndIndex : Prop :=
  ∀ (i : Instr) (s t : State), exec i s = .next t →
    ((∀ nnn, i ≠ .call nnn) → i ≠ .ret → t.stack = s.stack ∧ t.sp = s.sp) ∧
    ((∀ nnn, i ≠ .ldI nnn) → (∀ x, i ≠ .addIV x) → (∀ x, i ≠ .ldFV x) → (∀ x, i ≠ .ldMemV x) →
      (∀ x, i ≠ .ldVMem x) → t.i = s.i)

/-- R24: every instruction but the jumps, the call, the return, the skips and Fx0A leaves the pc at the address + 2 that
the fetch made; a skip leaves it there or at + 4; Fx0A leaves it there or 2 below. -/
def Obligations.OnlyTheControlInstructionsMoveThePc : Prop :=
  ∀ (i : Instr) (s t : State), exec i s = .next t →
    (∃ nnn, i = .jp nnn) ∨ (∃ nnn, i = .jpV0 nnn) ∨ (∃ nnn, i = .call nnn) ∨ i = .ret ∨ t.pc = s.pc ∨
    (t.pc = s.pc + 2#16 ∧ ((∃ x kk, i = .seImm x kk) ∨ (∃ x kk, i = .sneImm x kk) ∨ (∃ x y, i = .seReg x y) ∨
      (∃ x y, i = .sneReg x y) ∨ (∃ x, i = .skp x) ∨ ∃ x, i = .sknp x)) ∨
    (t.pc = s.pc - 2#16 ∧ ∃ x, i = .ldVK x)

/-- R25, R39 and the canonical form of memory: from every state that meets the invariant, a step leads to a state that
meets it. The form of memory is the model's own (log 17). -/
def Obligations.StepKeepsTheInvariant : Prop :=
  ∀ s t : State, s.Inv → step s = .next t → t.Inv

/-- R39: from every state that meets the invariant, every list of host commands, loadRom and runs of any length among
them, in any order, leads to a state that meets it, with the parameter FONT as it was. That commands may come in any order
is the model's choice, where the spec makes the order the host's duty (R352, R354; log 5); the form of memory, FONT
included, is the model's own (log 3, 17). -/
def Obligations.CommandsKeepTheInvariant : Prop :=
  ∀ (cs : List Command) (s : State), s.Inv → (performAll cs s).Inv ∧ (performAll cs s).mem.font = s.mem.font

/-- R38, R39: the power-on state, whatever FONT is, and the state after reset() meet the invariant. That power-on is the
reset state is the spec's own choice (D20, log 18). -/
def Obligations.PowerOnMeetsTheInvariant : Prop :=
  (∀ font : Font, (State.powerOn font).Inv) ∧ ∀ s : State, (resetCore s).Inv

/-! ### The host's commands (60_exceptions.md, 70_reset_and_hazards.md) -/

/-- R337, R357: with a fault recorded, no command but reset() and a successful loadRom changes anything except the keypad
and the timers, which the host may write; those two clear it. The spec's own choice (D7, D22, log 14). -/
def Obligations.OnlyResetAndLoadRomClearAFault : Prop :=
  (∀ (s : State) (r : FaultRecord) (c : Command), s.fault = some r → c ≠ .reset →
    (∀ image path, c = .loadRom (.bytes image) path → 3584 < image.length) →
    let t := (perform c s).1
    t = { s with keys := t.keys, keysPrev := t.keysPrev, dt := t.dt, st := t.st }) ∧
  (∀ s : State, (perform .reset s).1.fault = none) ∧
  ∀ (s : State) (image : List Byte) (path : String), image.length ≤ 3584 →
    (perform (.loadRom (.bytes image) path) s).1.fault = none

/-- R346: any number n of ticks without a fault take each timer down by n, never below 0, and change nothing else; with a fault they
change nothing (for that clause D7). -/
def Obligations.TicksCountDownToZero : Prop :=
  ∀ (n : Nat) (s : State),
    (s.fault = none → let t := tickTimers^[n] s
      t.dt.toNat = s.dt.toNat - n ∧ t.st.toNat = s.st.toNat - n ∧ t = { s with dt := t.dt, st := t.st }) ∧
    (s.fault ≠ none → tickTimers^[n] s = s)

/-- R351, R405: a run of n steps executes k ≤ n steps, one after the other; between two of them there is neither a fault nor a
draw; and it stops before n only with a fault recorded or after a draw. That DW is tested after each step is the
spec's own choice (D18, log 13). -/
def Obligations.RunStopsAtADrawOrAFault : Prop :=
  ∀ (n : Nat) (s : State), let k := (run n s).2
    k ≤ n ∧ (run n s).1 = stepState^[k] s ∧
    (∀ j, 0 < j → j < k → (stepState^[j] s).fault = none ∧ (stepState^[j] s).dw = false) ∧
    (k < n → (run n s).1.fault ≠ none ∨ (0 < k ∧ (run n s).1.dw = true))

/-- R342, R343, R352, R402, R406: a frame leaves the keys it was given, and the keys before it as the snapshot; its run
sees exactly those; with a fault there is no tick, and without one each timer is ticked once after the run. No tick with
a fault is the spec's own choice (D7, log 14). -/
def Obligations.FrameSamplesKeysAndTicksOnce : Prop :=
  ∀ (pad : Keypad) (n : Nat) (s : State),
    let ran := (run n { s with keysPrev := s.keys, keys := pad }).1
    let t := (frame pad n s).1
    ran.keys = pad ∧ ran.keysPrev = s.keys ∧ t = { ran with dt := t.dt, st := t.st } ∧
    (ran.fault = none → t.dt.toNat = ran.dt.toNat - 1 ∧ t.st.toNat = ran.st.toNat - 1) ∧
    (ran.fault ≠ none → t = ran)

/-- R396, R397: a loadRom with an unreadable source or more than 3584 bytes returns false and changes nothing; otherwise it
returns true, puts byte i at 0x200 + i, and leaves every other byte and every other piece of state as reset() does,
with romLoaded true and the path recorded. (That the fault is cleared is D22; the draw count and the place of FONT are
the model's own, and both stay, log 3, 4.) -/
def Obligations.LoadRomInstallsOrChangesNothing : Prop :=
  (∀ (s : State) (path : String), loadRom .unreadable path s = (s, false)) ∧
  (∀ (s : State) (image : List Byte) (path : String), 3584 < image.length →
    loadRom (.bytes image) path s = (s, false)) ∧
  ∀ (s : State) (image : List Byte) (path : String), image.length ≤ 3584 → ∃ t,
    loadRom (.bytes image) path s = (t, true) ∧
    (∀ k (h : k < image.length), t.readMem (0x200 + k) = image[k]) ∧
    (∀ a, (a < 0x200 ∨ 0x200 + image.length ≤ a) → t.readMem a = (resetCore s).readMem a) ∧ t.mem.font = s.mem.font ∧
    t = { State.reset with mem := t.mem, romLoaded := true, romPath := path, rngDraws := s.rngDraws }

/-- R37, R390, R392: what reset() leaves, every field; romLoaded and romPath stay. The font bytes are the parameter
FONT, whatever it is, which stays (log 3). (DW = 0 is D17 and fault = none D22; the draw count is the model's own and
stays, log 4.) -/
def Obligations.ResetLeavesTheResetValues : Prop :=
  ∀ s : State, let t := resetCore s
    (∀ a, t.readMem a = if h : 0x50 ≤ a ∧ a ≤ 0x9F then s.mem.font[a - 0x50] else 0#8) ∧ t.mem.font = s.mem.font ∧
    (∀ r, t.readV r = 0#8) ∧ (∀ j (h : j < 16), t.stack[j] = 0#16) ∧
    (∀ k (h : k < 16), t.keys[k] = false ∧ t.keysPrev[k] = false) ∧ (∀ c r, t.pixel c r = false) ∧
    t.pc = 0x200#16 ∧ t.i = 0#16 ∧ t.sp = 0 ∧ t.dt = 0#8 ∧ t.st = 0#8 ∧ t.dw = false ∧ t.fault = none ∧
    t.romLoaded = s.romLoaded ∧ t.romPath = s.romPath ∧ t.rngDraws = s.rngDraws

end Statements
end

