-- ==== Sys2Proof/Laws/Decode.lean ====
section
/-! SUPPORT. The fields of the opcodes the encoder writes, one lemma per field per form (30_encoding.md R91). -/

namespace Sys2Proof

@[simp] theorem regOf_nibbleOf (r : Reg) : regOf (nibbleOf r) = r := by
  have := r.isLt
  apply Fin.ext
  simp [regOf, nibbleOf]

@[simp] theorem nibbleOf_regOf (b : Nibble) : nibbleOf (regOf b) = b := by
  simp [regOf, nibbleOf]

/-- A field is a value when their bits agree. -/
theorem field_eq_of_bits {op : Word} {lo w : Nat} {b : BitVec w}
    (h : ∀ k < w, op.getLsbD (lo + k) = b.getLsbD k) : field op lo w = b := by
  apply BitVec.eq_of_getLsbD_eq
  intro k hk
  simp [field, hk, h k hk]

/-! ### Form fnnn -/

theorem getLsbD_wordN (f : Nibble) (nnn : Addr12) (k : Nat) :
    (wordN f nnn).getLsbD k = if k < 12 then nnn.getLsbD k else f.getLsbD (k - 12) := by
  exact BitVec.getLsbD_append

@[simp] theorem family_wordN (f : Nibble) (nnn : Addr12) : family (wordN f nnn) = f :=
  field_eq_of_bits fun k _ => by rw [getLsbD_wordN, if_neg (by omega), Nat.add_sub_cancel_left]

@[simp] theorem fieldNNN_wordN (f : Nibble) (nnn : Addr12) : fieldNNN (wordN f nnn) = nnn :=
  field_eq_of_bits fun k hk => by rw [getLsbD_wordN, if_pos (by omega), Nat.zero_add]

/-! ### Form fxkk -/

theorem getLsbD_wordXK (f : Nibble) (x : Reg) (kk : Byte) (k : Nat) :
    (wordXK f x kk).getLsbD k =
      if k < 12 then if k < 8 then kk.getLsbD k else (nibbleOf x).getLsbD (k - 8) else f.getLsbD (k - 12) := by
  have h : (nibbleOf x ++ kk).getLsbD k = if k < 8 then kk.getLsbD k else (nibbleOf x).getLsbD (k - 8) :=
    BitVec.getLsbD_append
  rw [← h]
  exact BitVec.getLsbD_append

@[simp] theorem family_wordXK (f : Nibble) (x : Reg) (kk : Byte) : family (wordXK f x kk) = f :=
  field_eq_of_bits fun k _ => by rw [getLsbD_wordXK, if_neg (by omega), Nat.add_sub_cancel_left]

@[simp] theorem fieldX_wordXK (f : Nibble) (x : Reg) (kk : Byte) : fieldX (wordXK f x kk) = x := by
  have h : field (wordXK f x kk) 8 4 = nibbleOf x := field_eq_of_bits fun k hk => by
    rw [getLsbD_wordXK, if_pos (by omega), if_neg (by omega), Nat.add_sub_cancel_left]
  rw [fieldX, h, regOf_nibbleOf]

@[simp] theorem fieldKK_wordXK (f : Nibble) (x : Reg) (kk : Byte) : fieldKK (wordXK f x kk) = kk :=
  field_eq_of_bits fun k hk => by rw [getLsbD_wordXK, if_pos (by omega), if_pos (by omega), Nat.zero_add]

/-! ### Form fxyn -/

theorem getLsbD_wordXY (f : Nibble) (x y : Reg) (n : Nibble) (k : Nat) :
    (wordXY f x y n).getLsbD k =
      if k < 12 then
        if k < 8 then if k < 4 then n.getLsbD k else (nibbleOf y).getLsbD (k - 4)
        else (nibbleOf x).getLsbD (k - 8)
      else f.getLsbD (k - 12) := by
  have h1 : (nibbleOf y ++ n).getLsbD k = if k < 4 then n.getLsbD k else (nibbleOf y).getLsbD (k - 4) :=
    BitVec.getLsbD_append
  have h2 : (nibbleOf x ++ (nibbleOf y ++ n)).getLsbD k =
      if k < 8 then (nibbleOf y ++ n).getLsbD k else (nibbleOf x).getLsbD (k - 8) := BitVec.getLsbD_append
  rw [← h1, ← h2]
  exact BitVec.getLsbD_append

@[simp] theorem family_wordXY (f : Nibble) (x y : Reg) (n : Nibble) : family (wordXY f x y n) = f :=
  field_eq_of_bits fun k _ => by rw [getLsbD_wordXY, if_neg (by omega), Nat.add_sub_cancel_left]

@[simp] theorem fieldX_wordXY (f : Nibble) (x y : Reg) (n : Nibble) : fieldX (wordXY f x y n) = x := by
  have h : field (wordXY f x y n) 8 4 = nibbleOf x := field_eq_of_bits fun k hk => by
    rw [getLsbD_wordXY, if_pos (by omega), if_neg (by omega), Nat.add_sub_cancel_left]
  rw [fieldX, h, regOf_nibbleOf]

@[simp] theorem fieldY_wordXY (f : Nibble) (x y : Reg) (n : Nibble) : fieldY (wordXY f x y n) = y := by
  have h : field (wordXY f x y n) 4 4 = nibbleOf y := field_eq_of_bits fun k hk => by
    rw [getLsbD_wordXY, if_pos (by omega), if_pos (by omega), if_neg (by omega), Nat.add_sub_cancel_left]
  rw [fieldY, h, regOf_nibbleOf]

@[simp] theorem fieldN_wordXY (f : Nibble) (x y : Reg) (n : Nibble) : fieldN (wordXY f x y n) = n :=
  field_eq_of_bits fun k hk => by
    rw [getLsbD_wordXY, if_pos (by omega), if_pos (by omega), if_pos (by omega), Nat.zero_add]

/-! ### A word is its fields -/

/-- Each bit of an opcode is a bit of one of its nibbles. -/
theorem getLsbD_field (op : Word) (lo w k : Nat) : (field op lo w).getLsbD k = (decide (k < w) && op.getLsbD (lo + k)) := by
  simp [field]

theorem wordN_fields (op : Word) : wordN (family op) (fieldNNN op) = op := by
  apply BitVec.eq_of_getLsbD_eq
  intro k hk
  rw [getLsbD_wordN, fieldNNN, family, getLsbD_field, getLsbD_field]
  split
  · next h => simp [h]
  · next h => simp [show k - 12 < 4 by omega, show 12 + (k - 12) = k by omega]

theorem wordXK_fields (op : Word) : wordXK (family op) (fieldX op) (fieldKK op) = op := by
  apply BitVec.eq_of_getLsbD_eq
  intro k hk
  rw [getLsbD_wordXK, fieldX, nibbleOf_regOf, fieldKK, family, getLsbD_field, getLsbD_field, getLsbD_field]
  split
  · split
    · next h => simp [h]
    · next h => simp [show k - 8 < 4 by omega, show 8 + (k - 8) = k by omega]
  · next h => simp [show k - 12 < 4 by omega, show 12 + (k - 12) = k by omega]

theorem wordXY_fields (op : Word) : wordXY (family op) (fieldX op) (fieldY op) (fieldN op) = op := by
  apply BitVec.eq_of_getLsbD_eq
  intro k hk
  rw [getLsbD_wordXY, fieldX, nibbleOf_regOf, fieldY, nibbleOf_regOf, fieldN, family, getLsbD_field, getLsbD_field,
    getLsbD_field, getLsbD_field]
  split
  · split
    · split
      · next h => simp [h]
      · next h => simp [show k - 4 < 4 by omega, show 4 + (k - 4) = k by omega]
    · next h => simp [show k - 8 < 4 by omega, show 8 + (k - 8) = k by omega]
  · next h => simp [show k - 12 < 4 by omega, show 12 + (k - 12) = k by omega]

/-- An opcode of a known family is that family's form over its own fields. -/
theorem wordN_of_family {op : Word} {f : Nibble} (h : family op = f) : wordN f (fieldNNN op) = op := by
  rw [← h, wordN_fields]

theorem wordXK_of_family {op : Word} {f : Nibble} {kk : Byte} (h : family op = f) (hk : fieldKK op = kk) :
    wordXK f (fieldX op) kk = op := by
  rw [← h, ← hk, wordXK_fields]

theorem wordXY_of_family {op : Word} {f n : Nibble} (h : family op = f) (hn : fieldN op = n) :
    wordXY f (fieldX op) (fieldY op) n = op := by
  rw [← h, ← hn, wordXY_fields]

/-- A nibble is one of sixteen: the case split of R124's table. -/
theorem nibble_cases : ∀ f : Nibble,
    f = 0x0#4 ∨ f = 0x1#4 ∨ f = 0x2#4 ∨ f = 0x3#4 ∨ f = 0x4#4 ∨ f = 0x5#4 ∨ f = 0x6#4 ∨ f = 0x7#4 ∨
    f = 0x8#4 ∨ f = 0x9#4 ∨ f = 0xA#4 ∨ f = 0xB#4 ∨ f = 0xC#4 ∨ f = 0xD#4 ∨ f = 0xE#4 ∨ f = 0xF#4 := by
  decide

/-! ### Fields as numbers -/

theorem family_toNat (op : Word) : (family op).toNat = op.toNat / 4096 := by
  have := op.isLt
  simp [family, field, Nat.shiftRight_eq_div_pow]
  omega

theorem fieldN_toNat (op : Word) : (fieldN op).toNat = op.toNat % 16 := by
  simp [fieldN, field]

theorem fieldKK_toNat (op : Word) : (fieldKK op).toNat = op.toNat % 256 := by
  simp [fieldKK, field]

theorem nibbleOf_toNat (r : Reg) : (nibbleOf r).toNat = r.val := by
  have := r.isLt
  simp [nibbleOf]

theorem wordN_toNat (f : Nibble) (nnn : Addr12) : (wordN f nnn).toNat = f.toNat * 4096 + nnn.toNat := by
  have h : (wordN f nnn).toNat = f.toNat <<< 12 ||| nnn.toNat := BitVec.toNat_append f nnn
  rw [h, ← Nat.shiftLeft_add_eq_or_of_lt nnn.isLt, Nat.shiftLeft_eq]

theorem wordXK_toNat (f : Nibble) (x : Reg) (kk : Byte) :
    (wordXK f x kk).toNat = f.toNat * 4096 + x.val * 256 + kk.toNat := by
  have h1 : (nibbleOf x ++ kk).toNat = x.val * 256 + kk.toNat := by
    rw [BitVec.toNat_append, ← Nat.shiftLeft_add_eq_or_of_lt kk.isLt, Nat.shiftLeft_eq, nibbleOf_toNat]
  have h2 : (wordXK f x kk).toNat = f.toNat <<< 12 ||| (nibbleOf x ++ kk).toNat := BitVec.toNat_append f _
  rw [h2, ← Nat.shiftLeft_add_eq_or_of_lt (nibbleOf x ++ kk).isLt, Nat.shiftLeft_eq, h1]
  omega

theorem wordXY_toNat (f : Nibble) (x y : Reg) (n : Nibble) :
    (wordXY f x y n).toNat = f.toNat * 4096 + x.val * 256 + y.val * 16 + n.toNat := by
  have h1 : (nibbleOf y ++ n).toNat = y.val * 16 + n.toNat := by
    rw [BitVec.toNat_append, ← Nat.shiftLeft_add_eq_or_of_lt n.isLt, Nat.shiftLeft_eq, nibbleOf_toNat]
  have h2 : (nibbleOf x ++ (nibbleOf y ++ n)).toNat = x.val * 256 + y.val * 16 + n.toNat := by
    rw [BitVec.toNat_append, ← Nat.shiftLeft_add_eq_or_of_lt (nibbleOf y ++ n).isLt, Nat.shiftLeft_eq,
      nibbleOf_toNat, h1]
    omega
  have h3 : (wordXY f x y n).toNat = f.toNat <<< 12 ||| (nibbleOf x ++ (nibbleOf y ++ n)).toNat :=
    BitVec.toNat_append f _
  rw [h3, ← Nat.shiftLeft_add_eq_or_of_lt (nibbleOf x ++ (nibbleOf y ++ n)).isLt, Nat.shiftLeft_eq, h2]
  omega

/-! ### Bytes -/

/-- The bytes laid out for a word give that word back (20_memory.md R68). -/
theorem opcodeOf_bytesOfWord (op : Word) : opcodeOf (op.extractLsb' 8 8) (op.extractLsb' 0 8) = op := by
  apply BitVec.eq_of_getLsbD_eq
  intro k hk
  have h : (opcodeOf (op.extractLsb' 8 8) (op.extractLsb' 0 8)).getLsbD k =
      if k < 8 then (op.extractLsb' 0 8).getLsbD k else (op.extractLsb' 8 8).getLsbD (k - 8) := BitVec.getLsbD_append
  rw [h]
  split
  · next h8 => simp [h8]
  · next h8 => simp [show k - 8 < 8 by omega, show 8 + (k - 8) = k by omega]

/-- An opcode as a number: high byte times 256 plus low byte (R68). -/
theorem opcodeOf_toNat (high low : Byte) : (opcodeOf high low).toNat = high.toNat * 256 + low.toNat := by
  have h : (opcodeOf high low).toNat = high.toNat <<< 8 ||| low.toNat := BitVec.toNat_append high low
  rw [h, ← Nat.shiftLeft_add_eq_or_of_lt low.isLt, Nat.shiftLeft_eq]

theorem decodeBytes_bytesOfWord (op : Word) : decodeBytes (bytesOfWord op) = (decodeWord op, []) := by
  rw [bytesOfWord, decodeBytes, opcodeOf_bytesOfWord]

end Sys2Proof
end

