-- ==== Sys2Proof/Laws/Memory.lean ====
section
/-! SUPPORT. Memory: a read after a write to the same byte gives the value written, a write leaves every other byte
alone, and every operation keeps the canonical form (20_memory.md R69). -/

namespace Sys2Proof.Machine

variable {font : Font}

/-! ### One cell -/

theorem lookupCell_cellFor_append_same (a : Nat) (b : Byte) (cells : List Host.Cell)
    (h : lookupCell font a cells = resetByte font a) : lookupCell font a (cellFor font a b ++ cells) = b := by
  by_cases hb : b = resetByte font a
  · simp [cellFor, hb, h]
  · simp [cellFor, hb, lookupCell]

theorem lookupCell_cellFor_append_other {a a' : Nat} (hne : a' ≠ a) (b : Byte) (cells : List Host.Cell) :
    lookupCell font a' (cellFor font a b ++ cells) = lookupCell font a' cells := by
  by_cases hb : b = resetByte font a
  · simp [cellFor, hb]
  · simp [cellFor, hb, lookupCell, Ne.symm hne]

theorem lookupCell_not_mem (a : Nat) (cells : List Host.Cell) (h : ∀ c ∈ cells, c.1 ≠ a) :
    lookupCell font a cells = resetByte font a := by
  induction cells with
  | nil => rfl
  | cons c rest ih =>
    rw [lookupCell, if_neg (h c (by simp))]
    exact ih fun d hd => h d (by simp [hd])

theorem dropCell_not_mem (a : Nat) (cells : List Host.Cell) : ∀ c ∈ dropCell a cells, c.1 ≠ a := by
  simp [dropCell]

theorem lookupCell_dropCell_other {a a' : Nat} (hne : a' ≠ a) (cells : List Host.Cell) :
    lookupCell font a' (dropCell a cells) = lookupCell font a' cells := by
  induction cells with
  | nil => rfl
  | cons c rest ih =>
    by_cases hc : c.1 = a
    · have hd : dropCell a (c :: rest) = dropCell a rest := by simp [dropCell, hc]
      rw [hd, ih, lookupCell, if_neg (by omega)]
    · have hd : dropCell a (c :: rest) = c :: dropCell a rest := by simp [dropCell, hc]
      rw [hd, lookupCell, lookupCell, ih]

theorem lookupCell_insertCell_same (a : Nat) (b : Byte) (cells : List Host.Cell) (h : ∀ c ∈ cells, c.1 ≠ a) :
    lookupCell font a (insertCell font a b cells) = b := by
  induction cells with
  | nil => simpa [insertCell] using lookupCell_cellFor_append_same a b [] rfl
  | cons c rest ih =>
    rw [insertCell]
    split
    · exact lookupCell_cellFor_append_same a b _ (lookupCell_not_mem a _ h)
    · rw [lookupCell, if_neg (h c (by simp)), ih fun d hd => h d (by simp [hd])]

theorem lookupCell_insertCell_other {a a' : Nat} (hne : a' ≠ a) (b : Byte) (cells : List Host.Cell) :
    lookupCell font a' (insertCell font a b cells) = lookupCell font a' cells := by
  induction cells with
  | nil => simpa [insertCell] using lookupCell_cellFor_append_other hne b []
  | cons c rest ih =>
    rw [insertCell]
    split
    · exact lookupCell_cellFor_append_other hne b _
    · rw [lookupCell, lookupCell, ih]

/-! ### Reads and writes -/

/-- A byte just written reads as what was written. -/
theorem Memory.read_write_same (m : Memory) {a : Nat} (b : Byte) (h : a < memSize) : (m.write a b).read a = b := by
  simp only [Memory.write, if_pos h, Memory.read]
  exact lookupCell_insertCell_same a b _ (dropCell_not_mem a m.cells)

/-- A write leaves every other byte alone, wherever it goes. -/
theorem Memory.read_write_other (m : Memory) {a a' : Nat} (b : Byte) (h : a' ≠ a) :
    (m.write a b).read a' = m.read a' := by
  rw [Memory.write]
  split
  · simp only [Memory.read]
    rw [lookupCell_insertCell_other h, lookupCell_dropCell_other h]
  · rfl

/-- What a byte reads as after a write. -/
theorem Memory.read_write (m : Memory) (a a' : Nat) (b : Byte) :
    (m.write a b).read a' = if a' = a ∧ a < memSize then b else m.read a' := by
  by_cases h : a' = a
  · subst h
    by_cases hs : a' < memSize
    · simp [hs, Memory.read_write_same]
    · simp [hs, Memory.write]
  · simp [h, Memory.read_write_other]

/-- What a byte reads as after consecutive bytes have been written. -/
theorem Memory.read_writeBytes (m : Memory) (a : Nat) (bs : List Byte) (a' : Nat) :
    (m.writeBytes a bs).read a' =
      if a ≤ a' ∧ a' < a + bs.length ∧ a' < memSize then bs.getD (a' - a) 0#8 else m.read a' := by
  induction bs generalizing m a with
  | nil => rw [Memory.writeBytes, if_neg (by simp; omega)]
  | cons b rest ih =>
    rw [Memory.writeBytes, ih, Memory.read_write]
    by_cases h1 : a' = a
    · subst h1
      by_cases hs : a' < memSize <;> simp [hs]
    · by_cases h2 : a + 1 ≤ a' ∧ a' < a + 1 + rest.length ∧ a' < memSize
      · obtain ⟨h3, h4, h5⟩ := h2
        have hk : a' - a = (a' - (a + 1)) + 1 := by omega
        rw [if_pos ⟨h3, h4, h5⟩, if_pos ⟨by omega, by simp; omega, h5⟩, hk]
        simp
      · rw [if_neg h2, if_neg (by simp [h1]), if_neg (by simp at h2 ⊢; omega)]

/-! ### The canonical form -/

theorem cellsWf_cons (low : Nat) (c : Host.Cell) (rest : List Host.Cell) :
    cellsWf font low (c :: rest) = true ↔
      low ≤ c.1 ∧ c.1 < memSize ∧ c.2 ≠ resetByte font c.1 ∧ cellsWf font (c.1 + 1) rest = true := by
  simp [cellsWf, and_assoc]

theorem cellsWf_weaken {low low' : Nat} (h : low' ≤ low) {cells : List Host.Cell} (hw : cellsWf font low cells = true) :
    cellsWf font low' cells = true := by
  cases cells with
  | nil => rfl
  | cons c rest =>
    rw [cellsWf_cons] at hw ⊢
    exact ⟨h.trans hw.1, hw.2⟩

theorem cellsWf_dropCell (a low : Nat) {cells : List Host.Cell} (hw : cellsWf font low cells = true) :
    cellsWf font low (dropCell a cells) = true := by
  induction cells generalizing low with
  | nil => rfl
  | cons c rest ih =>
    rw [cellsWf_cons] at hw
    by_cases hc : c.1 = a
    · have hd : dropCell a (c :: rest) = dropCell a rest := by simp [dropCell, hc]
      rw [hd]
      exact cellsWf_weaken (by omega) (ih (c.1 + 1) hw.2.2.2)
    · have hd : dropCell a (c :: rest) = c :: dropCell a rest := by simp [dropCell, hc]
      rw [hd, cellsWf_cons]
      exact ⟨hw.1, hw.2.1, hw.2.2.1, ih _ hw.2.2.2⟩

theorem cellsWf_cellFor_append {a low : Nat} (b : Byte) {cells : List Host.Cell} (hl : low ≤ a) (hs : a < memSize)
    (hw : cellsWf font (a + 1) cells = true) : cellsWf font low (cellFor font a b ++ cells) = true := by
  by_cases hb : b = resetByte font a
  · simpa [cellFor, hb] using cellsWf_weaken (by omega) hw
  · simpa [cellFor, hb, cellsWf_cons] using ⟨hl, hs, hw⟩

theorem cellsWf_insertCell {a low : Nat} (b : Byte) {cells : List Host.Cell} (hl : low ≤ a) (hs : a < memSize)
    (hne : ∀ c ∈ cells, c.1 ≠ a) (hw : cellsWf font low cells = true) : cellsWf font low (insertCell font a b cells) = true := by
  induction cells generalizing low with
  | nil => simpa [insertCell] using cellsWf_cellFor_append b (cells := []) hl hs rfl
  | cons c rest ih =>
    have hc : c.1 ≠ a := hne c (by simp)
    rw [cellsWf_cons] at hw
    rw [insertCell]
    split
    · refine cellsWf_cellFor_append b hl hs ?_
      rw [cellsWf_cons]
      exact ⟨by omega, hw.2⟩
    · rw [cellsWf_cons]
      exact ⟨hw.1, hw.2.1, hw.2.2.1, ih (by omega) (fun d hd => hne d (by simp [hd])) hw.2.2.2⟩

/-- A write keeps the canonical form. -/
theorem Memory.wf_write (m : Memory) (a : Nat) (b : Byte) (h : m.wf = true) : (m.write a b).wf = true := by
  rw [Memory.write]
  split
  · next hs =>
    exact cellsWf_insertCell b (Nat.zero_le a) hs (dropCell_not_mem a m.cells) (cellsWf_dropCell a 0 h)
  · exact h

/-- So do consecutive writes. -/
theorem Memory.wf_writeBytes (m : Memory) (a : Nat) (bs : List Byte) (h : m.wf = true) :
    (m.writeBytes a bs).wf = true := by
  induction bs generalizing m a with
  | nil => exact h
  | cons b rest ih => exact ih _ _ (Memory.wf_write m a b h)

/-- The power-on memory is canonical and reads as the reset contents, whatever FONT is. -/
theorem powerOn_mem_wf (font : Font) : (State.powerOn font).mem.wf = true := rfl

theorem read_powerOn (font : Font) (a : Nat) : (State.powerOn font).mem.read a = resetByte font a := rfl

/-! ### FONT -/

/-- A write leaves FONT alone. -/
@[simp] theorem Memory.write_font (m : Memory) (a : Nat) (b : Byte) : (m.write a b).font = m.font := by
  rw [Memory.write]
  split <;> rfl

/-- So do consecutive writes. -/
@[simp] theorem Memory.writeBytes_font (m : Memory) (a : Nat) (bs : List Byte) : (m.writeBytes a bs).font = m.font := by
  induction bs generalizing m a with
  | nil => rfl
  | cons b rest ih => rw [Memory.writeBytes, ih, Memory.write_font]

/-! ### Bounds -/

/-- No address is out of range exactly when the bytes end at or below 0x1000, or there are none (R64). -/
theorem lowestBad_eq_none (base count : Nat) : lowestBad base count = none ↔ count = 0 ∨ base + count ≤ memSize := by
  rw [lowestBad]
  split
  · next h => simp; omega
  · next h => simp; omega

/-- The address a bounds fault reports is the lowest one out of range among those the instruction would access (R334). -/
theorem lowestBad_eq_some (base count a : Nat) :
    lowestBad base count = some a ↔ 0 < count ∧ memSize < base + count ∧ a = max base memSize := by
  rw [lowestBad]
  split
  · next h => simp [h.1, h.2, eq_comm]
  · next h => simp; omega

end Sys2Proof.Machine
end

