-- ==== Sys2Proof/Laws/State.lean ====
section
/-! SUPPORT. Field by field, what each update of State does: one lemma per field per update, so that no proof unfolds a
record update, and what each reader sees after it. -/

namespace Sys2Proof.Machine

/-! ### writeV -/

@[simp] theorem State.writeV_v (s : State) (r : Reg) (b : Byte) : (s.writeV r b).v = s.v.set r.val b := rfl
@[simp] theorem State.writeV_pc (s : State) (r : Reg) (b : Byte) : (s.writeV r b).pc = s.pc := rfl
@[simp] theorem State.writeV_i (s : State) (r : Reg) (b : Byte) : (s.writeV r b).i = s.i := rfl
@[simp] theorem State.writeV_stack (s : State) (r : Reg) (b : Byte) : (s.writeV r b).stack = s.stack := rfl
@[simp] theorem State.writeV_sp (s : State) (r : Reg) (b : Byte) : (s.writeV r b).sp = s.sp := rfl
@[simp] theorem State.writeV_dt (s : State) (r : Reg) (b : Byte) : (s.writeV r b).dt = s.dt := rfl
@[simp] theorem State.writeV_st (s : State) (r : Reg) (b : Byte) : (s.writeV r b).st = s.st := rfl
@[simp] theorem State.writeV_keys (s : State) (r : Reg) (b : Byte) : (s.writeV r b).keys = s.keys := rfl
@[simp] theorem State.writeV_keysPrev (s : State) (r : Reg) (b : Byte) : (s.writeV r b).keysPrev = s.keysPrev := rfl
@[simp] theorem State.writeV_screen (s : State) (r : Reg) (b : Byte) : (s.writeV r b).screen = s.screen := rfl
@[simp] theorem State.writeV_dw (s : State) (r : Reg) (b : Byte) : (s.writeV r b).dw = s.dw := rfl
@[simp] theorem State.writeV_fault (s : State) (r : Reg) (b : Byte) : (s.writeV r b).fault = s.fault := rfl
@[simp] theorem State.writeV_romLoaded (s : State) (r : Reg) (b : Byte) : (s.writeV r b).romLoaded = s.romLoaded := rfl
@[simp] theorem State.writeV_romPath (s : State) (r : Reg) (b : Byte) : (s.writeV r b).romPath = s.romPath := rfl
@[simp] theorem State.writeV_mem (s : State) (r : Reg) (b : Byte) : (s.writeV r b).mem = s.mem := rfl
@[simp] theorem State.writeV_rngDraws (s : State) (r : Reg) (b : Byte) : (s.writeV r b).rngDraws = s.rngDraws := rfl
@[simp] theorem State.writeV_readMem (s : State) (r : Reg) (b : Byte) (a' : Nat) : (s.writeV r b).readMem a' = s.readMem a' := rfl
@[simp] theorem State.writeV_pixel (s : State) (r : Reg) (b : Byte) (c' : Fin 64) (r' : Fin 32) : (s.writeV r b).pixel c' r' = s.pixel c' r' := rfl
@[simp] theorem State.writeV_key (s : State) (r : Reg) (b : Byte) (k : Key) : (s.writeV r b).key k = s.key k := rfl
@[simp] theorem State.writeV_keyPrev (s : State) (r : Reg) (b : Byte) (k : Key) : (s.writeV r b).keyPrev k = s.keyPrev k := rfl

/-! ### writeVF -/

@[simp] theorem State.writeVF_v (s : State) (b : Byte) : (s.writeVF b).v = s.v.set Reg.f.val b := rfl
@[simp] theorem State.writeVF_pc (s : State) (b : Byte) : (s.writeVF b).pc = s.pc := rfl
@[simp] theorem State.writeVF_i (s : State) (b : Byte) : (s.writeVF b).i = s.i := rfl
@[simp] theorem State.writeVF_stack (s : State) (b : Byte) : (s.writeVF b).stack = s.stack := rfl
@[simp] theorem State.writeVF_sp (s : State) (b : Byte) : (s.writeVF b).sp = s.sp := rfl
@[simp] theorem State.writeVF_dt (s : State) (b : Byte) : (s.writeVF b).dt = s.dt := rfl
@[simp] theorem State.writeVF_st (s : State) (b : Byte) : (s.writeVF b).st = s.st := rfl
@[simp] theorem State.writeVF_keys (s : State) (b : Byte) : (s.writeVF b).keys = s.keys := rfl
@[simp] theorem State.writeVF_keysPrev (s : State) (b : Byte) : (s.writeVF b).keysPrev = s.keysPrev := rfl
@[simp] theorem State.writeVF_screen (s : State) (b : Byte) : (s.writeVF b).screen = s.screen := rfl
@[simp] theorem State.writeVF_dw (s : State) (b : Byte) : (s.writeVF b).dw = s.dw := rfl
@[simp] theorem State.writeVF_fault (s : State) (b : Byte) : (s.writeVF b).fault = s.fault := rfl
@[simp] theorem State.writeVF_romLoaded (s : State) (b : Byte) : (s.writeVF b).romLoaded = s.romLoaded := rfl
@[simp] theorem State.writeVF_romPath (s : State) (b : Byte) : (s.writeVF b).romPath = s.romPath := rfl
@[simp] theorem State.writeVF_mem (s : State) (b : Byte) : (s.writeVF b).mem = s.mem := rfl
@[simp] theorem State.writeVF_rngDraws (s : State) (b : Byte) : (s.writeVF b).rngDraws = s.rngDraws := rfl
@[simp] theorem State.writeVF_readMem (s : State) (b : Byte) (a' : Nat) : (s.writeVF b).readMem a' = s.readMem a' := rfl
@[simp] theorem State.writeVF_pixel (s : State) (b : Byte) (c' : Fin 64) (r' : Fin 32) : (s.writeVF b).pixel c' r' = s.pixel c' r' := rfl
@[simp] theorem State.writeVF_key (s : State) (b : Byte) (k : Key) : (s.writeVF b).key k = s.key k := rfl
@[simp] theorem State.writeVF_keyPrev (s : State) (b : Byte) (k : Key) : (s.writeVF b).keyPrev k = s.keyPrev k := rfl

/-! ### setPc -/

@[simp] theorem State.setPc_v (s : State) (t : Word) : (s.setPc t).v = s.v := rfl
@[simp] theorem State.setPc_pc (s : State) (t : Word) : (s.setPc t).pc = t := rfl
@[simp] theorem State.setPc_i (s : State) (t : Word) : (s.setPc t).i = s.i := rfl
@[simp] theorem State.setPc_stack (s : State) (t : Word) : (s.setPc t).stack = s.stack := rfl
@[simp] theorem State.setPc_sp (s : State) (t : Word) : (s.setPc t).sp = s.sp := rfl
@[simp] theorem State.setPc_dt (s : State) (t : Word) : (s.setPc t).dt = s.dt := rfl
@[simp] theorem State.setPc_st (s : State) (t : Word) : (s.setPc t).st = s.st := rfl
@[simp] theorem State.setPc_keys (s : State) (t : Word) : (s.setPc t).keys = s.keys := rfl
@[simp] theorem State.setPc_keysPrev (s : State) (t : Word) : (s.setPc t).keysPrev = s.keysPrev := rfl
@[simp] theorem State.setPc_screen (s : State) (t : Word) : (s.setPc t).screen = s.screen := rfl
@[simp] theorem State.setPc_dw (s : State) (t : Word) : (s.setPc t).dw = s.dw := rfl
@[simp] theorem State.setPc_fault (s : State) (t : Word) : (s.setPc t).fault = s.fault := rfl
@[simp] theorem State.setPc_romLoaded (s : State) (t : Word) : (s.setPc t).romLoaded = s.romLoaded := rfl
@[simp] theorem State.setPc_romPath (s : State) (t : Word) : (s.setPc t).romPath = s.romPath := rfl
@[simp] theorem State.setPc_mem (s : State) (t : Word) : (s.setPc t).mem = s.mem := rfl
@[simp] theorem State.setPc_rngDraws (s : State) (t : Word) : (s.setPc t).rngDraws = s.rngDraws := rfl
@[simp] theorem State.setPc_readV (s : State) (t : Word) (r' : Reg) : (s.setPc t).readV r' = s.readV r' := rfl
@[simp] theorem State.setPc_readMem (s : State) (t : Word) (a' : Nat) : (s.setPc t).readMem a' = s.readMem a' := rfl
@[simp] theorem State.setPc_pixel (s : State) (t : Word) (c' : Fin 64) (r' : Fin 32) : (s.setPc t).pixel c' r' = s.pixel c' r' := rfl
@[simp] theorem State.setPc_key (s : State) (t : Word) (k : Key) : (s.setPc t).key k = s.key k := rfl
@[simp] theorem State.setPc_keyPrev (s : State) (t : Word) (k : Key) : (s.setPc t).keyPrev k = s.keyPrev k := rfl

/-! ### setI -/

@[simp] theorem State.setI_v (s : State) (t : Word) : (s.setI t).v = s.v := rfl
@[simp] theorem State.setI_pc (s : State) (t : Word) : (s.setI t).pc = s.pc := rfl
@[simp] theorem State.setI_i (s : State) (t : Word) : (s.setI t).i = t := rfl
@[simp] theorem State.setI_stack (s : State) (t : Word) : (s.setI t).stack = s.stack := rfl
@[simp] theorem State.setI_sp (s : State) (t : Word) : (s.setI t).sp = s.sp := rfl
@[simp] theorem State.setI_dt (s : State) (t : Word) : (s.setI t).dt = s.dt := rfl
@[simp] theorem State.setI_st (s : State) (t : Word) : (s.setI t).st = s.st := rfl
@[simp] theorem State.setI_keys (s : State) (t : Word) : (s.setI t).keys = s.keys := rfl
@[simp] theorem State.setI_keysPrev (s : State) (t : Word) : (s.setI t).keysPrev = s.keysPrev := rfl
@[simp] theorem State.setI_screen (s : State) (t : Word) : (s.setI t).screen = s.screen := rfl
@[simp] theorem State.setI_dw (s : State) (t : Word) : (s.setI t).dw = s.dw := rfl
@[simp] theorem State.setI_fault (s : State) (t : Word) : (s.setI t).fault = s.fault := rfl
@[simp] theorem State.setI_romLoaded (s : State) (t : Word) : (s.setI t).romLoaded = s.romLoaded := rfl
@[simp] theorem State.setI_romPath (s : State) (t : Word) : (s.setI t).romPath = s.romPath := rfl
@[simp] theorem State.setI_mem (s : State) (t : Word) : (s.setI t).mem = s.mem := rfl
@[simp] theorem State.setI_rngDraws (s : State) (t : Word) : (s.setI t).rngDraws = s.rngDraws := rfl
@[simp] theorem State.setI_readV (s : State) (t : Word) (r' : Reg) : (s.setI t).readV r' = s.readV r' := rfl
@[simp] theorem State.setI_readMem (s : State) (t : Word) (a' : Nat) : (s.setI t).readMem a' = s.readMem a' := rfl
@[simp] theorem State.setI_pixel (s : State) (t : Word) (c' : Fin 64) (r' : Fin 32) : (s.setI t).pixel c' r' = s.pixel c' r' := rfl
@[simp] theorem State.setI_key (s : State) (t : Word) (k : Key) : (s.setI t).key k = s.key k := rfl
@[simp] theorem State.setI_keyPrev (s : State) (t : Word) (k : Key) : (s.setI t).keyPrev k = s.keyPrev k := rfl

/-! ### setDt -/

@[simp] theorem State.setDt_v (s : State) (b : Byte) : (s.setDt b).v = s.v := rfl
@[simp] theorem State.setDt_pc (s : State) (b : Byte) : (s.setDt b).pc = s.pc := rfl
@[simp] theorem State.setDt_i (s : State) (b : Byte) : (s.setDt b).i = s.i := rfl
@[simp] theorem State.setDt_stack (s : State) (b : Byte) : (s.setDt b).stack = s.stack := rfl
@[simp] theorem State.setDt_sp (s : State) (b : Byte) : (s.setDt b).sp = s.sp := rfl
@[simp] theorem State.setDt_dt (s : State) (b : Byte) : (s.setDt b).dt = b := rfl
@[simp] theorem State.setDt_st (s : State) (b : Byte) : (s.setDt b).st = s.st := rfl
@[simp] theorem State.setDt_keys (s : State) (b : Byte) : (s.setDt b).keys = s.keys := rfl
@[simp] theorem State.setDt_keysPrev (s : State) (b : Byte) : (s.setDt b).keysPrev = s.keysPrev := rfl
@[simp] theorem State.setDt_screen (s : State) (b : Byte) : (s.setDt b).screen = s.screen := rfl
@[simp] theorem State.setDt_dw (s : State) (b : Byte) : (s.setDt b).dw = s.dw := rfl
@[simp] theorem State.setDt_fault (s : State) (b : Byte) : (s.setDt b).fault = s.fault := rfl
@[simp] theorem State.setDt_romLoaded (s : State) (b : Byte) : (s.setDt b).romLoaded = s.romLoaded := rfl
@[simp] theorem State.setDt_romPath (s : State) (b : Byte) : (s.setDt b).romPath = s.romPath := rfl
@[simp] theorem State.setDt_mem (s : State) (b : Byte) : (s.setDt b).mem = s.mem := rfl
@[simp] theorem State.setDt_rngDraws (s : State) (b : Byte) : (s.setDt b).rngDraws = s.rngDraws := rfl
@[simp] theorem State.setDt_readV (s : State) (b : Byte) (r' : Reg) : (s.setDt b).readV r' = s.readV r' := rfl
@[simp] theorem State.setDt_readMem (s : State) (b : Byte) (a' : Nat) : (s.setDt b).readMem a' = s.readMem a' := rfl
@[simp] theorem State.setDt_pixel (s : State) (b : Byte) (c' : Fin 64) (r' : Fin 32) : (s.setDt b).pixel c' r' = s.pixel c' r' := rfl
@[simp] theorem State.setDt_key (s : State) (b : Byte) (k : Key) : (s.setDt b).key k = s.key k := rfl
@[simp] theorem State.setDt_keyPrev (s : State) (b : Byte) (k : Key) : (s.setDt b).keyPrev k = s.keyPrev k := rfl

/-! ### setSt -/

@[simp] theorem State.setSt_v (s : State) (b : Byte) : (s.setSt b).v = s.v := rfl
@[simp] theorem State.setSt_pc (s : State) (b : Byte) : (s.setSt b).pc = s.pc := rfl
@[simp] theorem State.setSt_i (s : State) (b : Byte) : (s.setSt b).i = s.i := rfl
@[simp] theorem State.setSt_stack (s : State) (b : Byte) : (s.setSt b).stack = s.stack := rfl
@[simp] theorem State.setSt_sp (s : State) (b : Byte) : (s.setSt b).sp = s.sp := rfl
@[simp] theorem State.setSt_dt (s : State) (b : Byte) : (s.setSt b).dt = s.dt := rfl
@[simp] theorem State.setSt_st (s : State) (b : Byte) : (s.setSt b).st = b := rfl
@[simp] theorem State.setSt_keys (s : State) (b : Byte) : (s.setSt b).keys = s.keys := rfl
@[simp] theorem State.setSt_keysPrev (s : State) (b : Byte) : (s.setSt b).keysPrev = s.keysPrev := rfl
@[simp] theorem State.setSt_screen (s : State) (b : Byte) : (s.setSt b).screen = s.screen := rfl
@[simp] theorem State.setSt_dw (s : State) (b : Byte) : (s.setSt b).dw = s.dw := rfl
@[simp] theorem State.setSt_fault (s : State) (b : Byte) : (s.setSt b).fault = s.fault := rfl
@[simp] theorem State.setSt_romLoaded (s : State) (b : Byte) : (s.setSt b).romLoaded = s.romLoaded := rfl
@[simp] theorem State.setSt_romPath (s : State) (b : Byte) : (s.setSt b).romPath = s.romPath := rfl
@[simp] theorem State.setSt_mem (s : State) (b : Byte) : (s.setSt b).mem = s.mem := rfl
@[simp] theorem State.setSt_rngDraws (s : State) (b : Byte) : (s.setSt b).rngDraws = s.rngDraws := rfl
@[simp] theorem State.setSt_readV (s : State) (b : Byte) (r' : Reg) : (s.setSt b).readV r' = s.readV r' := rfl
@[simp] theorem State.setSt_readMem (s : State) (b : Byte) (a' : Nat) : (s.setSt b).readMem a' = s.readMem a' := rfl
@[simp] theorem State.setSt_pixel (s : State) (b : Byte) (c' : Fin 64) (r' : Fin 32) : (s.setSt b).pixel c' r' = s.pixel c' r' := rfl
@[simp] theorem State.setSt_key (s : State) (b : Byte) (k : Key) : (s.setSt b).key k = s.key k := rfl
@[simp] theorem State.setSt_keyPrev (s : State) (b : Byte) (k : Key) : (s.setSt b).keyPrev k = s.keyPrev k := rfl

/-! ### setDw -/

@[simp] theorem State.setDw_v (s : State) (b : Bool) : (s.setDw b).v = s.v := rfl
@[simp] theorem State.setDw_pc (s : State) (b : Bool) : (s.setDw b).pc = s.pc := rfl
@[simp] theorem State.setDw_i (s : State) (b : Bool) : (s.setDw b).i = s.i := rfl
@[simp] theorem State.setDw_stack (s : State) (b : Bool) : (s.setDw b).stack = s.stack := rfl
@[simp] theorem State.setDw_sp (s : State) (b : Bool) : (s.setDw b).sp = s.sp := rfl
@[simp] theorem State.setDw_dt (s : State) (b : Bool) : (s.setDw b).dt = s.dt := rfl
@[simp] theorem State.setDw_st (s : State) (b : Bool) : (s.setDw b).st = s.st := rfl
@[simp] theorem State.setDw_keys (s : State) (b : Bool) : (s.setDw b).keys = s.keys := rfl
@[simp] theorem State.setDw_keysPrev (s : State) (b : Bool) : (s.setDw b).keysPrev = s.keysPrev := rfl
@[simp] theorem State.setDw_screen (s : State) (b : Bool) : (s.setDw b).screen = s.screen := rfl
@[simp] theorem State.setDw_dw (s : State) (b : Bool) : (s.setDw b).dw = b := rfl
@[simp] theorem State.setDw_fault (s : State) (b : Bool) : (s.setDw b).fault = s.fault := rfl
@[simp] theorem State.setDw_romLoaded (s : State) (b : Bool) : (s.setDw b).romLoaded = s.romLoaded := rfl
@[simp] theorem State.setDw_romPath (s : State) (b : Bool) : (s.setDw b).romPath = s.romPath := rfl
@[simp] theorem State.setDw_mem (s : State) (b : Bool) : (s.setDw b).mem = s.mem := rfl
@[simp] theorem State.setDw_rngDraws (s : State) (b : Bool) : (s.setDw b).rngDraws = s.rngDraws := rfl
@[simp] theorem State.setDw_readV (s : State) (b : Bool) (r' : Reg) : (s.setDw b).readV r' = s.readV r' := rfl
@[simp] theorem State.setDw_readMem (s : State) (b : Bool) (a' : Nat) : (s.setDw b).readMem a' = s.readMem a' := rfl
@[simp] theorem State.setDw_pixel (s : State) (b : Bool) (c' : Fin 64) (r' : Fin 32) : (s.setDw b).pixel c' r' = s.pixel c' r' := rfl
@[simp] theorem State.setDw_key (s : State) (b : Bool) (k : Key) : (s.setDw b).key k = s.key k := rfl
@[simp] theorem State.setDw_keyPrev (s : State) (b : Bool) (k : Key) : (s.setDw b).keyPrev k = s.keyPrev k := rfl

/-! ### advancePc -/

@[simp] theorem State.advancePc_v (s : State) : s.advancePc.v = s.v := rfl
@[simp] theorem State.advancePc_pc (s : State) : s.advancePc.pc = s.pc + 2#16 := rfl
@[simp] theorem State.advancePc_i (s : State) : s.advancePc.i = s.i := rfl
@[simp] theorem State.advancePc_stack (s : State) : s.advancePc.stack = s.stack := rfl
@[simp] theorem State.advancePc_sp (s : State) : s.advancePc.sp = s.sp := rfl
@[simp] theorem State.advancePc_dt (s : State) : s.advancePc.dt = s.dt := rfl
@[simp] theorem State.advancePc_st (s : State) : s.advancePc.st = s.st := rfl
@[simp] theorem State.advancePc_keys (s : State) : s.advancePc.keys = s.keys := rfl
@[simp] theorem State.advancePc_keysPrev (s : State) : s.advancePc.keysPrev = s.keysPrev := rfl
@[simp] theorem State.advancePc_screen (s : State) : s.advancePc.screen = s.screen := rfl
@[simp] theorem State.advancePc_dw (s : State) : s.advancePc.dw = s.dw := rfl
@[simp] theorem State.advancePc_fault (s : State) : s.advancePc.fault = s.fault := rfl
@[simp] theorem State.advancePc_romLoaded (s : State) : s.advancePc.romLoaded = s.romLoaded := rfl
@[simp] theorem State.advancePc_romPath (s : State) : s.advancePc.romPath = s.romPath := rfl
@[simp] theorem State.advancePc_mem (s : State) : s.advancePc.mem = s.mem := rfl
@[simp] theorem State.advancePc_rngDraws (s : State) : s.advancePc.rngDraws = s.rngDraws := rfl
@[simp] theorem State.advancePc_readV (s : State) (r' : Reg) : s.advancePc.readV r' = s.readV r' := rfl
@[simp] theorem State.advancePc_readMem (s : State) (a' : Nat) : s.advancePc.readMem a' = s.readMem a' := rfl
@[simp] theorem State.advancePc_pixel (s : State) (c' : Fin 64) (r' : Fin 32) : s.advancePc.pixel c' r' = s.pixel c' r' := rfl
@[simp] theorem State.advancePc_key (s : State) (k : Key) : s.advancePc.key k = s.key k := rfl
@[simp] theorem State.advancePc_keyPrev (s : State) (k : Key) : s.advancePc.keyPrev k = s.keyPrev k := rfl

/-! ### skipIf -/

@[simp] theorem State.skipIf_v (s : State) (c : Bool) : (s.skipIf c).v = s.v := by cases c <;> rfl
@[simp] theorem State.skipIf_pc (s : State) (c : Bool) : (s.skipIf c).pc = if c then s.pc + 2#16 else s.pc := by cases c <;> rfl
@[simp] theorem State.skipIf_i (s : State) (c : Bool) : (s.skipIf c).i = s.i := by cases c <;> rfl
@[simp] theorem State.skipIf_stack (s : State) (c : Bool) : (s.skipIf c).stack = s.stack := by cases c <;> rfl
@[simp] theorem State.skipIf_sp (s : State) (c : Bool) : (s.skipIf c).sp = s.sp := by cases c <;> rfl
@[simp] theorem State.skipIf_dt (s : State) (c : Bool) : (s.skipIf c).dt = s.dt := by cases c <;> rfl
@[simp] theorem State.skipIf_st (s : State) (c : Bool) : (s.skipIf c).st = s.st := by cases c <;> rfl
@[simp] theorem State.skipIf_keys (s : State) (c : Bool) : (s.skipIf c).keys = s.keys := by cases c <;> rfl
@[simp] theorem State.skipIf_keysPrev (s : State) (c : Bool) : (s.skipIf c).keysPrev = s.keysPrev := by cases c <;> rfl
@[simp] theorem State.skipIf_screen (s : State) (c : Bool) : (s.skipIf c).screen = s.screen := by cases c <;> rfl
@[simp] theorem State.skipIf_dw (s : State) (c : Bool) : (s.skipIf c).dw = s.dw := by cases c <;> rfl
@[simp] theorem State.skipIf_fault (s : State) (c : Bool) : (s.skipIf c).fault = s.fault := by cases c <;> rfl
@[simp] theorem State.skipIf_romLoaded (s : State) (c : Bool) : (s.skipIf c).romLoaded = s.romLoaded := by cases c <;> rfl
@[simp] theorem State.skipIf_romPath (s : State) (c : Bool) : (s.skipIf c).romPath = s.romPath := by cases c <;> rfl
@[simp] theorem State.skipIf_mem (s : State) (c : Bool) : (s.skipIf c).mem = s.mem := by cases c <;> rfl
@[simp] theorem State.skipIf_rngDraws (s : State) (c : Bool) : (s.skipIf c).rngDraws = s.rngDraws := by cases c <;> rfl
@[simp] theorem State.skipIf_readV (s : State) (c : Bool) (r' : Reg) : (s.skipIf c).readV r' = s.readV r' := by cases c <;> rfl
@[simp] theorem State.skipIf_readMem (s : State) (c : Bool) (a' : Nat) : (s.skipIf c).readMem a' = s.readMem a' := by cases c <;> rfl
@[simp] theorem State.skipIf_pixel (s : State) (c : Bool) (c' : Fin 64) (r' : Fin 32) : (s.skipIf c).pixel c' r' = s.pixel c' r' := by cases c <;> rfl
@[simp] theorem State.skipIf_key (s : State) (c : Bool) (k : Key) : (s.skipIf c).key k = s.key k := by cases c <;> rfl
@[simp] theorem State.skipIf_keyPrev (s : State) (c : Bool) (k : Key) : (s.skipIf c).keyPrev k = s.keyPrev k := by cases c <;> rfl

/-! ### writeMem -/

@[simp] theorem State.writeMem_v (s : State) (a : Nat) (b : Byte) : (s.writeMem a b).v = s.v := rfl
@[simp] theorem State.writeMem_pc (s : State) (a : Nat) (b : Byte) : (s.writeMem a b).pc = s.pc := rfl
@[simp] theorem State.writeMem_i (s : State) (a : Nat) (b : Byte) : (s.writeMem a b).i = s.i := rfl
@[simp] theorem State.writeMem_stack (s : State) (a : Nat) (b : Byte) : (s.writeMem a b).stack = s.stack := rfl
@[simp] theorem State.writeMem_sp (s : State) (a : Nat) (b : Byte) : (s.writeMem a b).sp = s.sp := rfl
@[simp] theorem State.writeMem_dt (s : State) (a : Nat) (b : Byte) : (s.writeMem a b).dt = s.dt := rfl
@[simp] theorem State.writeMem_st (s : State) (a : Nat) (b : Byte) : (s.writeMem a b).st = s.st := rfl
@[simp] theorem State.writeMem_keys (s : State) (a : Nat) (b : Byte) : (s.writeMem a b).keys = s.keys := rfl
@[simp] theorem State.writeMem_keysPrev (s : State) (a : Nat) (b : Byte) : (s.writeMem a b).keysPrev = s.keysPrev := rfl
@[simp] theorem State.writeMem_screen (s : State) (a : Nat) (b : Byte) : (s.writeMem a b).screen = s.screen := rfl
@[simp] theorem State.writeMem_dw (s : State) (a : Nat) (b : Byte) : (s.writeMem a b).dw = s.dw := rfl
@[simp] theorem State.writeMem_fault (s : State) (a : Nat) (b : Byte) : (s.writeMem a b).fault = s.fault := rfl
@[simp] theorem State.writeMem_romLoaded (s : State) (a : Nat) (b : Byte) : (s.writeMem a b).romLoaded = s.romLoaded := rfl
@[simp] theorem State.writeMem_romPath (s : State) (a : Nat) (b : Byte) : (s.writeMem a b).romPath = s.romPath := rfl
@[simp] theorem State.writeMem_mem (s : State) (a : Nat) (b : Byte) : (s.writeMem a b).mem = s.mem.write a b := rfl
@[simp] theorem State.writeMem_rngDraws (s : State) (a : Nat) (b : Byte) : (s.writeMem a b).rngDraws = s.rngDraws := rfl
@[simp] theorem State.writeMem_readV (s : State) (a : Nat) (b : Byte) (r' : Reg) : (s.writeMem a b).readV r' = s.readV r' := rfl
@[simp] theorem State.writeMem_pixel (s : State) (a : Nat) (b : Byte) (c' : Fin 64) (r' : Fin 32) : (s.writeMem a b).pixel c' r' = s.pixel c' r' := rfl
@[simp] theorem State.writeMem_key (s : State) (a : Nat) (b : Byte) (k : Key) : (s.writeMem a b).key k = s.key k := rfl
@[simp] theorem State.writeMem_keyPrev (s : State) (a : Nat) (b : Byte) (k : Key) : (s.writeMem a b).keyPrev k = s.keyPrev k := rfl

/-! ### setPixel -/

@[simp] theorem State.setPixel_v (s : State) (c : Fin 64) (r : Fin 32) (b : Bool) : (s.setPixel c r b).v = s.v := rfl
@[simp] theorem State.setPixel_pc (s : State) (c : Fin 64) (r : Fin 32) (b : Bool) : (s.setPixel c r b).pc = s.pc := rfl
@[simp] theorem State.setPixel_i (s : State) (c : Fin 64) (r : Fin 32) (b : Bool) : (s.setPixel c r b).i = s.i := rfl
@[simp] theorem State.setPixel_stack (s : State) (c : Fin 64) (r : Fin 32) (b : Bool) : (s.setPixel c r b).stack = s.stack := rfl
@[simp] theorem State.setPixel_sp (s : State) (c : Fin 64) (r : Fin 32) (b : Bool) : (s.setPixel c r b).sp = s.sp := rfl
@[simp] theorem State.setPixel_dt (s : State) (c : Fin 64) (r : Fin 32) (b : Bool) : (s.setPixel c r b).dt = s.dt := rfl
@[simp] theorem State.setPixel_st (s : State) (c : Fin 64) (r : Fin 32) (b : Bool) : (s.setPixel c r b).st = s.st := rfl
@[simp] theorem State.setPixel_keys (s : State) (c : Fin 64) (r : Fin 32) (b : Bool) : (s.setPixel c r b).keys = s.keys := rfl
@[simp] theorem State.setPixel_keysPrev (s : State) (c : Fin 64) (r : Fin 32) (b : Bool) : (s.setPixel c r b).keysPrev = s.keysPrev := rfl
@[simp] theorem State.setPixel_screen (s : State) (c : Fin 64) (r : Fin 32) (b : Bool) : (s.setPixel c r b).screen = s.screen.set r.val ((s.screen[r.val]).set c.val b) := rfl
@[simp] theorem State.setPixel_dw (s : State) (c : Fin 64) (r : Fin 32) (b : Bool) : (s.setPixel c r b).dw = s.dw := rfl
@[simp] theorem State.setPixel_fault (s : State) (c : Fin 64) (r : Fin 32) (b : Bool) : (s.setPixel c r b).fault = s.fault := rfl
@[simp] theorem State.setPixel_romLoaded (s : State) (c : Fin 64) (r : Fin 32) (b : Bool) : (s.setPixel c r b).romLoaded = s.romLoaded := rfl
@[simp] theorem State.setPixel_romPath (s : State) (c : Fin 64) (r : Fin 32) (b : Bool) : (s.setPixel c r b).romPath = s.romPath := rfl
@[simp] theorem State.setPixel_mem (s : State) (c : Fin 64) (r : Fin 32) (b : Bool) : (s.setPixel c r b).mem = s.mem := rfl
@[simp] theorem State.setPixel_rngDraws (s : State) (c : Fin 64) (r : Fin 32) (b : Bool) : (s.setPixel c r b).rngDraws = s.rngDraws := rfl
@[simp] theorem State.setPixel_readV (s : State) (c : Fin 64) (r : Fin 32) (b : Bool) (r' : Reg) : (s.setPixel c r b).readV r' = s.readV r' := rfl
@[simp] theorem State.setPixel_readMem (s : State) (c : Fin 64) (r : Fin 32) (b : Bool) (a' : Nat) : (s.setPixel c r b).readMem a' = s.readMem a' := rfl
@[simp] theorem State.setPixel_key (s : State) (c : Fin 64) (r : Fin 32) (b : Bool) (k : Key) : (s.setPixel c r b).key k = s.key k := rfl
@[simp] theorem State.setPixel_keyPrev (s : State) (c : Fin 64) (r : Fin 32) (b : Bool) (k : Key) : (s.setPixel c r b).keyPrev k = s.keyPrev k := rfl

/-! ### clearScreen -/

@[simp] theorem State.clearScreen_v (s : State) : s.clearScreen.v = s.v := rfl
@[simp] theorem State.clearScreen_pc (s : State) : s.clearScreen.pc = s.pc := rfl
@[simp] theorem State.clearScreen_i (s : State) : s.clearScreen.i = s.i := rfl
@[simp] theorem State.clearScreen_stack (s : State) : s.clearScreen.stack = s.stack := rfl
@[simp] theorem State.clearScreen_sp (s : State) : s.clearScreen.sp = s.sp := rfl
@[simp] theorem State.clearScreen_dt (s : State) : s.clearScreen.dt = s.dt := rfl
@[simp] theorem State.clearScreen_st (s : State) : s.clearScreen.st = s.st := rfl
@[simp] theorem State.clearScreen_keys (s : State) : s.clearScreen.keys = s.keys := rfl
@[simp] theorem State.clearScreen_keysPrev (s : State) : s.clearScreen.keysPrev = s.keysPrev := rfl
@[simp] theorem State.clearScreen_screen (s : State) : s.clearScreen.screen = Vector.replicate 32 (Vector.replicate 64 false) := rfl
@[simp] theorem State.clearScreen_dw (s : State) : s.clearScreen.dw = s.dw := rfl
@[simp] theorem State.clearScreen_fault (s : State) : s.clearScreen.fault = s.fault := rfl
@[simp] theorem State.clearScreen_romLoaded (s : State) : s.clearScreen.romLoaded = s.romLoaded := rfl
@[simp] theorem State.clearScreen_romPath (s : State) : s.clearScreen.romPath = s.romPath := rfl
@[simp] theorem State.clearScreen_mem (s : State) : s.clearScreen.mem = s.mem := rfl
@[simp] theorem State.clearScreen_rngDraws (s : State) : s.clearScreen.rngDraws = s.rngDraws := rfl
@[simp] theorem State.clearScreen_readV (s : State) (r' : Reg) : s.clearScreen.readV r' = s.readV r' := rfl
@[simp] theorem State.clearScreen_readMem (s : State) (a' : Nat) : s.clearScreen.readMem a' = s.readMem a' := rfl
@[simp] theorem State.clearScreen_key (s : State) (k : Key) : s.clearScreen.key k = s.key k := rfl
@[simp] theorem State.clearScreen_keyPrev (s : State) (k : Key) : s.clearScreen.keyPrev k = s.keyPrev k := rfl

/-! ### tookDraw -/

@[simp] theorem State.tookDraw_v (s : State) : s.tookDraw.v = s.v := rfl
@[simp] theorem State.tookDraw_pc (s : State) : s.tookDraw.pc = s.pc := rfl
@[simp] theorem State.tookDraw_i (s : State) : s.tookDraw.i = s.i := rfl
@[simp] theorem State.tookDraw_stack (s : State) : s.tookDraw.stack = s.stack := rfl
@[simp] theorem State.tookDraw_sp (s : State) : s.tookDraw.sp = s.sp := rfl
@[simp] theorem State.tookDraw_dt (s : State) : s.tookDraw.dt = s.dt := rfl
@[simp] theorem State.tookDraw_st (s : State) : s.tookDraw.st = s.st := rfl
@[simp] theorem State.tookDraw_keys (s : State) : s.tookDraw.keys = s.keys := rfl
@[simp] theorem State.tookDraw_keysPrev (s : State) : s.tookDraw.keysPrev = s.keysPrev := rfl
@[simp] theorem State.tookDraw_screen (s : State) : s.tookDraw.screen = s.screen := rfl
@[simp] theorem State.tookDraw_dw (s : State) : s.tookDraw.dw = s.dw := rfl
@[simp] theorem State.tookDraw_fault (s : State) : s.tookDraw.fault = s.fault := rfl
@[simp] theorem State.tookDraw_romLoaded (s : State) : s.tookDraw.romLoaded = s.romLoaded := rfl
@[simp] theorem State.tookDraw_romPath (s : State) : s.tookDraw.romPath = s.romPath := rfl
@[simp] theorem State.tookDraw_mem (s : State) : s.tookDraw.mem = s.mem := rfl
@[simp] theorem State.tookDraw_rngDraws (s : State) : s.tookDraw.rngDraws = s.rngDraws + 1 := rfl
@[simp] theorem State.tookDraw_readV (s : State) (r' : Reg) : s.tookDraw.readV r' = s.readV r' := rfl
@[simp] theorem State.tookDraw_readMem (s : State) (a' : Nat) : s.tookDraw.readMem a' = s.readMem a' := rfl
@[simp] theorem State.tookDraw_pixel (s : State) (c' : Fin 64) (r' : Fin 32) : s.tookDraw.pixel c' r' = s.pixel c' r' := rfl
@[simp] theorem State.tookDraw_key (s : State) (k : Key) : s.tookDraw.key k = s.key k := rfl
@[simp] theorem State.tookDraw_keyPrev (s : State) (k : Key) : s.tookDraw.keyPrev k = s.keyPrev k := rfl

/-! ### withFault -/

@[simp] theorem State.withFault_v (s : State) (c : FaultCause) (op : Option Word) (a : Option Nat) : (s.withFault c op a).v = s.v := rfl
@[simp] theorem State.withFault_pc (s : State) (c : FaultCause) (op : Option Word) (a : Option Nat) : (s.withFault c op a).pc = s.pc := rfl
@[simp] theorem State.withFault_i (s : State) (c : FaultCause) (op : Option Word) (a : Option Nat) : (s.withFault c op a).i = s.i := rfl
@[simp] theorem State.withFault_stack (s : State) (c : FaultCause) (op : Option Word) (a : Option Nat) : (s.withFault c op a).stack = s.stack := rfl
@[simp] theorem State.withFault_sp (s : State) (c : FaultCause) (op : Option Word) (a : Option Nat) : (s.withFault c op a).sp = s.sp := rfl
@[simp] theorem State.withFault_dt (s : State) (c : FaultCause) (op : Option Word) (a : Option Nat) : (s.withFault c op a).dt = s.dt := rfl
@[simp] theorem State.withFault_st (s : State) (c : FaultCause) (op : Option Word) (a : Option Nat) : (s.withFault c op a).st = s.st := rfl
@[simp] theorem State.withFault_keys (s : State) (c : FaultCause) (op : Option Word) (a : Option Nat) : (s.withFault c op a).keys = s.keys := rfl
@[simp] theorem State.withFault_keysPrev (s : State) (c : FaultCause) (op : Option Word) (a : Option Nat) : (s.withFault c op a).keysPrev = s.keysPrev := rfl
@[simp] theorem State.withFault_screen (s : State) (c : FaultCause) (op : Option Word) (a : Option Nat) : (s.withFault c op a).screen = s.screen := rfl
@[simp] theorem State.withFault_dw (s : State) (c : FaultCause) (op : Option Word) (a : Option Nat) : (s.withFault c op a).dw = s.dw := rfl
@[simp] theorem State.withFault_fault (s : State) (c : FaultCause) (op : Option Word) (a : Option Nat) : (s.withFault c op a).fault = some ⟨c, op, s.pc, a⟩ := rfl
@[simp] theorem State.withFault_romLoaded (s : State) (c : FaultCause) (op : Option Word) (a : Option Nat) : (s.withFault c op a).romLoaded = s.romLoaded := rfl
@[simp] theorem State.withFault_romPath (s : State) (c : FaultCause) (op : Option Word) (a : Option Nat) : (s.withFault c op a).romPath = s.romPath := rfl
@[simp] theorem State.withFault_mem (s : State) (c : FaultCause) (op : Option Word) (a : Option Nat) : (s.withFault c op a).mem = s.mem := rfl
@[simp] theorem State.withFault_rngDraws (s : State) (c : FaultCause) (op : Option Word) (a : Option Nat) : (s.withFault c op a).rngDraws = s.rngDraws := rfl
@[simp] theorem State.withFault_readV (s : State) (c : FaultCause) (op : Option Word) (a : Option Nat) (r' : Reg) : (s.withFault c op a).readV r' = s.readV r' := rfl
@[simp] theorem State.withFault_readMem (s : State) (c : FaultCause) (op : Option Word) (a : Option Nat) (a' : Nat) : (s.withFault c op a).readMem a' = s.readMem a' := rfl
@[simp] theorem State.withFault_pixel (s : State) (c : FaultCause) (op : Option Word) (a : Option Nat) (c' : Fin 64) (r' : Fin 32) : (s.withFault c op a).pixel c' r' = s.pixel c' r' := rfl
@[simp] theorem State.withFault_key (s : State) (c : FaultCause) (op : Option Word) (a : Option Nat) (k : Key) : (s.withFault c op a).key k = s.key k := rfl
@[simp] theorem State.withFault_keyPrev (s : State) (c : FaultCause) (op : Option Word) (a : Option Nat) (k : Key) : (s.withFault c op a).keyPrev k = s.keyPrev k := rfl

/-! ### advanceI -/

@[simp] theorem State.advanceI_v (s : State) (x : Reg) : (s.advanceI x).v = s.v := rfl
@[simp] theorem State.advanceI_pc (s : State) (x : Reg) : (s.advanceI x).pc = s.pc := rfl
@[simp] theorem State.advanceI_i (s : State) (x : Reg) : (s.advanceI x).i = s.i + BitVec.ofNat 16 (x.val + 1) := rfl
@[simp] theorem State.advanceI_stack (s : State) (x : Reg) : (s.advanceI x).stack = s.stack := rfl
@[simp] theorem State.advanceI_sp (s : State) (x : Reg) : (s.advanceI x).sp = s.sp := rfl
@[simp] theorem State.advanceI_dt (s : State) (x : Reg) : (s.advanceI x).dt = s.dt := rfl
@[simp] theorem State.advanceI_st (s : State) (x : Reg) : (s.advanceI x).st = s.st := rfl
@[simp] theorem State.advanceI_keys (s : State) (x : Reg) : (s.advanceI x).keys = s.keys := rfl
@[simp] theorem State.advanceI_keysPrev (s : State) (x : Reg) : (s.advanceI x).keysPrev = s.keysPrev := rfl
@[simp] theorem State.advanceI_screen (s : State) (x : Reg) : (s.advanceI x).screen = s.screen := rfl
@[simp] theorem State.advanceI_dw (s : State) (x : Reg) : (s.advanceI x).dw = s.dw := rfl
@[simp] theorem State.advanceI_fault (s : State) (x : Reg) : (s.advanceI x).fault = s.fault := rfl
@[simp] theorem State.advanceI_romLoaded (s : State) (x : Reg) : (s.advanceI x).romLoaded = s.romLoaded := rfl
@[simp] theorem State.advanceI_romPath (s : State) (x : Reg) : (s.advanceI x).romPath = s.romPath := rfl
@[simp] theorem State.advanceI_mem (s : State) (x : Reg) : (s.advanceI x).mem = s.mem := rfl
@[simp] theorem State.advanceI_rngDraws (s : State) (x : Reg) : (s.advanceI x).rngDraws = s.rngDraws := rfl
@[simp] theorem State.advanceI_readV (s : State) (x : Reg) (r' : Reg) : (s.advanceI x).readV r' = s.readV r' := rfl
@[simp] theorem State.advanceI_readMem (s : State) (x : Reg) (a' : Nat) : (s.advanceI x).readMem a' = s.readMem a' := rfl
@[simp] theorem State.advanceI_pixel (s : State) (x : Reg) (c' : Fin 64) (r' : Fin 32) : (s.advanceI x).pixel c' r' = s.pixel c' r' := rfl
@[simp] theorem State.advanceI_key (s : State) (x : Reg) (k : Key) : (s.advanceI x).key k = s.key k := rfl
@[simp] theorem State.advanceI_keyPrev (s : State) (x : Reg) (k : Key) : (s.advanceI x).keyPrev k = s.keyPrev k := rfl

end Sys2Proof.Machine
end

