-- ==== Sys2Proof/Laws/Ops.lean ====
section
/-! SUPPORT. One lemma per shared operation: what it can do, in the terms the claims use, so that no proof unfolds
it. -/

namespace Sys2Proof.Machine

/-! ### Registers -/

/-- What a register reads as after a register write (00_scope.md R11). -/
theorem State.writeV_readV (s : State) (r : Reg) (b : Byte) (r' : Reg) :
    (s.writeV r b).readV r' = if r' = r then b else s.readV r' := by
  simp only [State.readV, State.writeV, Vector.getElem_set, Fin.ext_iff, eq_comm]

theorem State.writeVF_readV (s : State) (b : Byte) (r' : Reg) :
    (s.writeVF b).readV r' = if r' = Reg.f then b else s.readV r' := s.writeV_readV Reg.f b r'

/-- A result and then the flag: VF reads as the flag whatever x is, and Vx as the result unless x = 0xF (R125). -/
theorem State.writeResult_readV (s : State) (x : Reg) (a b : Byte) (r' : Reg) :
    (s.writeResult x a b).readV r' = if r' = Reg.f then b else if r' = x then a else s.readV r' := by
  rw [State.writeResult, State.writeVF_readV, State.writeV_readV]

/-! ### Memory -/

/-- What a byte reads as after a byte write (20_memory.md R69). -/
theorem State.writeMem_readMem (s : State) (a : Nat) (b : Byte) (a' : Nat) :
    (s.writeMem a b).readMem a' = if a' = a ∧ a < memSize then b else s.readMem a' :=
  Memory.read_write s.mem a a' b

/-! ### The stack -/

/-- A push succeeds exactly below depth 16, and then writes the top slot and counts it (10_state.md R27). -/
theorem State.push_eq_some (s : State) (t : Word) (u : State) :
    s.push t = some u ↔
      ∃ h : s.sp.val < 16,
        u = { s with stack := s.stack.set s.sp.val t, sp := ⟨s.sp.val + 1, Nat.succ_lt_succ h⟩ } := by
  rw [State.push]
  split
  · next h => simp [h, eq_comm]
  · next h => simp [h]

theorem State.push_eq_none (s : State) (t : Word) : s.push t = none ↔ s.sp = 16 := by
  rw [State.push]
  split <;> simp [Fin.ext_iff] <;> omega

/-- A pop succeeds exactly above depth 0, and then gives the top slot's value and keeps the slot (R152). -/
theorem State.pop_eq_some (s : State) (t : Word) (u : State) :
    s.pop = some (t, u) ↔
      ∃ h : 0 < s.sp.val,
        t = s.stack[s.sp.val - 1]'(by omega) ∧ u = { s with sp := ⟨s.sp.val - 1, by omega⟩ } := by
  rw [State.pop]
  split
  · next h => simp [h, eq_comm]
  · next h => simp [h]

theorem State.pop_eq_none (s : State) : s.pop = none ↔ s.sp = 0 := by
  rw [State.pop, Fin.ext_iff]
  split
  · next h => exact iff_of_false (by simp) (by show ¬ s.sp.val = 0; omega)
  · next h => exact iff_of_true rfl (by show s.sp.val = 0; omega)

/-! ### The keypad -/

theorem ascending_eq_finRange : ascending = List.finRange 16 := by decide

theorem mem_ascending (k : Fin 16) : k ∈ ascending := by
  rw [ascending_eq_finRange]
  exact List.mem_finRange k

/-- The scan finds a key exactly when it is the lowest one released (44_keys_timers_misc.md R286). -/
theorem State.firstReleased_eq_some (s : State) (k : Key) :
    s.firstReleased = some k ↔ s.released k = true ∧ ∀ j : Key, j < k → s.released j = false := by
  have key : ∀ (f : Key → Bool) (k : Key),
      (List.finRange 16).find? f = some k ↔ f k = true ∧ ∀ j : Key, j < k → f j = false := by
    intro f k
    rw [List.find?_eq_some_iff_getElem]
    constructor
    · rintro ⟨hk, i, hi, hik, hlt⟩
      refine ⟨hk, fun j hj => ?_⟩
      have hi' : i = k.val := by simpa [Fin.ext_iff] using hik
      have hjk : j.val < i := by
        rw [hi']
        exact hj
      simpa using hlt j.val hjk
    · rintro ⟨hk, hlt⟩
      refine ⟨hk, k.val, by simp, by simp, fun j hj => ?_⟩
      have hj16 : j < 16 := by
        have := k.isLt
        omega
      have := hlt ⟨j, hj16⟩ (by simpa [Fin.lt_def] using hj)
      simpa using this
  rw [State.firstReleased, ascending_eq_finRange, key]

/-- The scan finds none exactly when no key is released (R286). -/
theorem State.firstReleased_eq_none (s : State) : s.firstReleased = none ↔ ∀ k : Key, s.released k = false := by
  rw [State.firstReleased, List.find?_eq_none]
  exact ⟨fun h k => by simpa using h k (mem_ascending k), fun h k _ => by simp [h k]⟩

/-! ### The plane -/

/-- What a pixel is after a pixel write (10_state.md R30). -/
theorem State.setPixel_pixel (s : State) (c : Fin 64) (r : Fin 32) (b : Bool) (c' : Fin 64) (r' : Fin 32) :
    (s.setPixel c r b).pixel c' r' = if c' = c ∧ r' = r then b else s.pixel c' r' := by
  simp only [State.pixel, State.setPixel, Vector.getElem_set, Fin.ext_iff]
  by_cases hr : r'.val = r.val
  · have hr2 : r' = r := Fin.ext hr
    subst hr2
    by_cases hc : c'.val = c.val
    · simp [hc]
    · simp [hc, Ne.symm hc]
  · simp [hr, Ne.symm hr]

theorem State.clearScreen_pixel (s : State) (c : Fin 64) (r : Fin 32) : s.clearScreen.pixel c r = false := by
  simp [State.pixel, State.clearScreen]

/-! ### How an instruction ends -/

theorem complete_eq_next (draw : Bool) (s t : State) : complete draw s = .next t ↔ t = s.setDw draw := by
  simp [complete, eq_comm]

theorem raise_eq_next (c : FaultCause) (op : Option Word) (a : Option Nat) (s t : State) :
    raise c op a s = .next t ↔ t = s.withFault c op a := by
  simp [raise, eq_comm]

/-- A raise changes nothing but the fault record (60_exceptions.md R336). -/
theorem State.withFault_eq (s : State) (c : FaultCause) (op : Option Word) (a : Option Nat) :
    s.withFault c op a = { s with fault := some ⟨c, op, s.pc, a⟩ } := rfl

end Sys2Proof.Machine
end

