-- ==== Sys2Proof/Laws/Display.lean ====
section
/-! SUPPORT. What the draw loops of 43_display.md R250 do, pixel by pixel: every plane pixel is XORed with the sprite bit
that meets it, VF is set where two ones meet, and nothing else changes. -/

namespace Sys2Proof.Machine

/-! ### One pixel -/

theorem State.togglePixel_pixel (s : State) (c : Fin 64) (r : Fin 32) (c' : Fin 64) (r' : Fin 32) :
    (s.togglePixel c r).pixel c' r' = if c' = c ∧ r' = r then !s.pixel c r else s.pixel c' r' := by
  rw [State.togglePixel, State.setPixel_pixel]
  cases s.pixel c r <;> rfl

theorem State.togglePixel_readV (s : State) (c : Fin 64) (r : Fin 32) (r' : Reg) :
    (s.togglePixel c r).readV r' = if r' = Reg.f ∧ s.pixel c r = true then 1#8 else s.readV r' := by
  rw [State.togglePixel, State.setPixel_readV]
  cases h : s.pixel c r <;> simp [State.writeVF_readV]

/-- Toggling changes the registers and the plane alone. -/
theorem State.togglePixel_frame (s : State) (c : Fin 64) (r : Fin 32) :
    { s.togglePixel c r with v := s.v, screen := s.screen } = s := by
  rw [State.togglePixel]
  split <;> rfl

/-! ### One sprite row -/

/-- The sprite-row bit that meets column `c`, for the columns c0 + k .. c0 + k + m - 1. -/
def rowBit (b : Byte) (c0 k m : Nat) (c : Fin 64) : Bool :=
  decide (c0 + k ≤ c.val ∧ c.val < c0 + k + m) && b.getLsbD (7 - (c.val - c0))

theorem rowBit_zero (b : Byte) (c0 k : Nat) (c : Fin 64) : rowBit b c0 k 0 c = false := by
  simp [rowBit]

/-- The first column of a row, and the rest. -/
theorem rowBit_succ (b : Byte) (c0 k m : Nat) (c : Fin 64) :
    rowBit b c0 k (m + 1) c = ((decide (c.val = c0 + k) && b.getLsbD (7 - k)) || rowBit b c0 (k + 1) m c) := by
  simp only [rowBit]
  by_cases h : c.val = c0 + k
  · simp [h]
  · have h1 : (c0 + k ≤ c.val ∧ c.val < c0 + k + (m + 1)) ↔ (c0 + (k + 1) ≤ c.val ∧ c.val < c0 + (k + 1) + m) := by
      omega
    simp [h, h1]

theorem rowBit_off (b : Byte) (c0 k m : Nat) (c : Fin 64) (h : ¬ c0 + k < 64) : rowBit b c0 k m c = false := by
  have := c.isLt
  simp [rowBit]
  omega

/-- What drawing the columns k .. k + m - 1 of a sprite row does to each pixel. -/
theorem drawColumns_pixel (b : Byte) (c0 : Nat) (r : Fin 32) (m k : Nat) (s : State) (c' : Fin 64) (r' : Fin 32) :
    (drawColumns b c0 r (List.range' k m) s).pixel c' r' =
      (s.pixel c' r' ^^ (decide (r' = r) && rowBit b c0 k m c')) := by
  induction m generalizing k s with
  | zero => simp [drawColumns, rowBit_zero]
  | succ m ih =>
    rw [List.range'_succ, drawColumns]
    split
    · next h =>
      rw [ih, rowBit_succ]
      by_cases hc : c'.val = c0 + k
      · have hc' : c' = ⟨c0 + k, h⟩ := Fin.ext hc
        have hoff : rowBit b c0 (k + 1) m c' = false := by simp [rowBit, hc]
        rw [hoff]
        cases hb : b.getLsbD (7 - k) <;> by_cases hr : r' = r <;> simp [State.togglePixel_pixel, hc', hr]
      · have hne : c' ≠ ⟨c0 + k, h⟩ := fun e => hc (by rw [e])
        cases hb : b.getLsbD (7 - k) <;> simp [State.togglePixel_pixel, hc, hne]
    · next h => simp [rowBit_off b c0 k (m + 1) c' h]

/-- What it does to the registers: VF becomes 1 where a sprite bit meets a lit pixel, and nothing else. -/
theorem drawColumns_readV (b : Byte) (c0 : Nat) (r : Fin 32) (m k : Nat) (s : State) (r' : Reg) :
    (drawColumns b c0 r (List.range' k m) s).readV r' =
      if r' = Reg.f ∧ ∃ c, rowBit b c0 k m c = true ∧ s.pixel c r = true then 1#8 else s.readV r' := by
  induction m generalizing k s with
  | zero => simp [drawColumns, rowBit_zero]
  | succ m ih =>
    rw [List.range'_succ, drawColumns]
    split
    · next h =>
      rw [ih]
      by_cases hf : r' = Reg.f
      · have key : (∃ c, rowBit b c0 k (m + 1) c = true ∧ s.pixel c r = true) ↔
            (b.getLsbD (7 - k) = true ∧ s.pixel ⟨c0 + k, h⟩ r = true) ∨
              ∃ c, rowBit b c0 (k + 1) m c = true ∧ s.pixel c r = true := by
          constructor
          · rintro ⟨c, hc, hp⟩
            rw [rowBit_succ] at hc
            rcases Bool.or_eq_true_iff.mp hc with hc | hc
            · simp only [Bool.and_eq_true, decide_eq_true_eq] at hc
              have hc' : c = ⟨c0 + k, h⟩ := Fin.ext hc.1
              exact Or.inl ⟨hc.2, hc' ▸ hp⟩
            · exact Or.inr ⟨c, hc, hp⟩
          · rintro (⟨hb, hp⟩ | ⟨c, hc, hp⟩)
            · exact ⟨⟨c0 + k, h⟩, by simp [rowBit_succ, hb], hp⟩
            · exact ⟨c, by simp [rowBit_succ, hc], hp⟩
        have later : ∀ t : State, (∀ c : Fin 64, c.val ≠ c0 + k → t.pixel c r = s.pixel c r) →
            ((∃ c, rowBit b c0 (k + 1) m c = true ∧ t.pixel c r = true) ↔
              ∃ c, rowBit b c0 (k + 1) m c = true ∧ s.pixel c r = true) := by
          intro t ht
          refine exists_congr fun c => and_congr_right fun hc => ?_
          have : c.val ≠ c0 + k := by
            intro e
            simp [rowBit, e] at hc
          rw [ht c this]
        cases hb : b.getLsbD (7 - k) with
        | false => simp [hf, key, hb]
        | true =>
          have hpix : ∀ c : Fin 64, c.val ≠ c0 + k → (s.togglePixel ⟨c0 + k, h⟩ r).pixel c r = s.pixel c r := by
            intro c hc
            have hne : c ≠ ⟨c0 + k, h⟩ := fun e => hc (by rw [e])
            simp [State.togglePixel_pixel, hne]
          simp only [if_true, hf, true_and, key, hb, later _ hpix, State.togglePixel_readV]
          by_cases h1 : ∃ c, rowBit b c0 (k + 1) m c = true ∧ s.pixel c r = true
          · simp [h1]
          · simp [h1]
      · cases hb : b.getLsbD (7 - k) <;> simp [hf, State.togglePixel_readV]
    · next h => simp [rowBit_off b c0 k (m + 1) _ h]

theorem drawColumns_frame (b : Byte) (c0 : Nat) (r : Fin 32) (cs : List Nat) (s : State) :
    { drawColumns b c0 r cs s with v := s.v, screen := s.screen } = s := by
  induction cs generalizing s with
  | nil => rfl
  | cons c cs ih =>
    rw [drawColumns]
    split
    · split
      · next h _ =>
        have h1 := ih (s.togglePixel ⟨c0 + c, h⟩ r)
        have h2 := s.togglePixel_frame ⟨c0 + c, h⟩ r
        calc
          _ = { ({ drawColumns b c0 r cs (s.togglePixel ⟨c0 + c, h⟩ r) with
                    v := (s.togglePixel ⟨c0 + c, h⟩ r).v
                    screen := (s.togglePixel ⟨c0 + c, h⟩ r).screen } : State) with
                  v := s.v, screen := s.screen } := rfl
          _ = { s.togglePixel ⟨c0 + c, h⟩ r with v := s.v, screen := s.screen } := by rw [h1]
          _ = s := h2
      · exact ih s
    · rfl

theorem spriteColumns_eq : spriteColumns = List.range' 0 8 := rfl

/-! ### The whole draw -/

/-- A draw changes the registers and the plane alone (R258). -/
theorem drawRows_frame (c0 r0 rows : Nat) (s : State) :
    { drawRows c0 r0 rows s with v := s.v, screen := s.screen } = s := by
  induction rows with
  | zero => rfl
  | succ k ih =>
    rw [drawRows]
    dsimp only
    split
    · next h =>
      have h1 := drawColumns_frame ((drawRows c0 r0 k s).readMem ((drawRows c0 r0 k s).i.toNat + k)) c0 ⟨r0 + k, h⟩
        spriteColumns (drawRows c0 r0 k s)
      rw [← h1] at ih
      exact ih
    · exact ih

/-- The same as an equation to rewrite with. -/
theorem drawRows_eq (c0 r0 rows : Nat) (s : State) : drawRows c0 r0 rows s =
    { s with v := (drawRows c0 r0 rows s).v, screen := (drawRows c0 r0 rows s).screen } := by
  have h := drawRows_frame c0 r0 rows s
  generalize drawRows c0 r0 rows s = t at *
  rw [← h]

theorem drawRows_readMem (c0 r0 rows : Nat) (s : State) (a : Nat) : (drawRows c0 r0 rows s).readMem a = s.readMem a := by
  have h := congrArg (fun t : State => t.readMem a) (drawRows_frame c0 r0 rows s)
  exact h

theorem drawRows_i (c0 r0 rows : Nat) (s : State) : (drawRows c0 r0 rows s).i = s.i := by
  have h := congrArg State.i (drawRows_frame c0 r0 rows s)
  exact h

/-- The sprite bit of one more row. -/
theorem spriteBit_succ (s : State) (c0 r0 k : Nat) (c : Fin 64) (r : Fin 32) :
    s.spriteBit c0 r0 (k + 1) c r =
      (s.spriteBit c0 r0 k c r ||
        (decide (r.val = r0 + k) && rowBit (s.readMem (s.i.toNat + k)) c0 0 8 c)) := by
  simp only [State.spriteBit, rowBit]
  by_cases h : r.val = r0 + k
  · simp [h]
  · have h1 : (r0 ≤ r.val ∧ r.val < r0 + (k + 1)) ↔ (r0 ≤ r.val ∧ r.val < r0 + k) := by omega
    simp [h, h1]

theorem spriteBit_zero (s : State) (c0 r0 : Nat) (c : Fin 64) (r : Fin 32) : s.spriteBit c0 r0 0 c r = false := by
  simp [State.spriteBit]

/-- A sprite row is drawn on one screen row, so the rows above it have not touched its pixels. -/
theorem spriteBit_below (s : State) (c0 r0 k : Nat) (c : Fin 64) (r : Fin 32) (h : r.val = r0 + k) :
    s.spriteBit c0 r0 k c r = false := by
  simp [State.spriteBit, h]

/-- Every pixel after a draw is the pixel before it XOR the sprite bit that meets it (R254). -/
theorem drawRows_pixel (c0 r0 rows : Nat) (s : State) (c : Fin 64) (r : Fin 32) :
    (drawRows c0 r0 rows s).pixel c r = (s.pixel c r ^^ s.spriteBit c0 r0 rows c r) := by
  induction rows with
  | zero => simp [drawRows, spriteBit_zero]
  | succ k ih =>
    rw [drawRows, spriteBit_succ]
    split
    · next h =>
      rw [spriteColumns_eq, drawColumns_pixel, ih, drawRows_readMem, drawRows_i]
      by_cases hr : r.val = r0 + k
      · have hr' : r = ⟨r0 + k, h⟩ := Fin.ext hr
        rw [spriteBit_below s c0 r0 k c r hr]
        simp [hr']
      · have hr' : r ≠ ⟨r0 + k, h⟩ := fun e => hr (by rw [e])
        simp [hr, hr']
    · next h =>
      have : r.val ≠ r0 + k := by omega
      simp [ih, this]

/-- VF after a draw is 1 exactly where a sprite bit met a lit pixel, and unchanged otherwise; no other register
changes (R254). -/
theorem drawRows_readV (c0 r0 rows : Nat) (s : State) (r' : Reg) :
    (drawRows c0 r0 rows s).readV r' =
      if r' = Reg.f ∧ ∃ c r, s.spriteBit c0 r0 rows c r = true ∧ s.pixel c r = true then 1#8 else s.readV r' := by
  induction rows with
  | zero => simp [drawRows, spriteBit_zero]
  | succ k ih =>
    rw [drawRows]
    split
    · next h =>
      rw [spriteColumns_eq, drawColumns_readV, ih, drawRows_readMem, drawRows_i]
      by_cases hf : r' = Reg.f
      · have hrow : (∃ c, rowBit (s.readMem (s.i.toNat + k)) c0 0 8 c = true ∧
              (drawRows c0 r0 k s).pixel c ⟨r0 + k, h⟩ = true) ↔
            ∃ c r, (decide (r.val = r0 + k) && rowBit (s.readMem (s.i.toNat + k)) c0 0 8 c) = true ∧
              s.pixel c r = true := by
          constructor
          · rintro ⟨c, hc, hp⟩
            rw [drawRows_pixel, spriteBit_below s c0 r0 k c _ rfl, Bool.xor_false] at hp
            exact ⟨c, ⟨r0 + k, h⟩, by simp [hc], hp⟩
          · rintro ⟨c, r, hc, hp⟩
            simp only [Bool.and_eq_true, decide_eq_true_eq] at hc
            have hr : r = ⟨r0 + k, h⟩ := Fin.ext hc.1
            refine ⟨c, hc.2, ?_⟩
            rw [drawRows_pixel, spriteBit_below s c0 r0 k c _ rfl, Bool.xor_false]
            exact hr ▸ hp
        have hsplit : (∃ c r, s.spriteBit c0 r0 (k + 1) c r = true ∧ s.pixel c r = true) ↔
            (∃ c r, s.spriteBit c0 r0 k c r = true ∧ s.pixel c r = true) ∨
              ∃ c r, (decide (r.val = r0 + k) && rowBit (s.readMem (s.i.toNat + k)) c0 0 8 c) = true ∧
                s.pixel c r = true := by
          simp only [spriteBit_succ, Bool.or_eq_true, or_and_right, exists_or]
        simp only [hf, true_and, hrow, hsplit]
        by_cases h1 : ∃ c r, s.spriteBit c0 r0 k c r = true ∧ s.pixel c r = true
        · simp [h1]
        · simp [h1]
      · simp [hf]
    · next h =>
      have : ∀ c (r : Fin 32), s.spriteBit c0 r0 (k + 1) c r = s.spriteBit c0 r0 k c r := by
        intro c r
        have : r.val ≠ r0 + k := by omega
        simp [spriteBit_succ, this]
      simp only [ih, this]

end Sys2Proof.Machine
end

