-- ==== Sys2Proof/Laws/Operands.lean ====
section
/-! SUPPORT. What each operand form and flag computation yields, as numbers. -/

namespace Sys2Proof.Machine

@[simp] theorem addressOf_toNat (nnn : Addr12) : (addressOf nnn).toNat = nnn.toNat := by
  simp [addressOf]; omega

@[simp] theorem widen_toNat (b : Byte) : (widen b).toNat = b.toNat := by
  simp [widen]; omega

/-- The jump target of Bnnn is the exact sum (41_system_and_flow.md R155). -/
theorem addressOf_add_widen_toNat (nnn : Addr12) (b : Byte) :
    (addressOf nnn + widen b).toNat = nnn.toNat + b.toNat := by
  rw [BitVec.toNat_add, addressOf_toNat, widen_toNat]
  omega

/-- The key number is the value modulo 16 (R93). -/
@[simp] theorem keyOf_val (b : Byte) : (keyOf b).val = b.toNat % 16 := by
  simp [keyOf, regOf]

/-- Up to 0xF both settings of P_FONT_DIGIT give the value itself (44_keys_timers_misc.md R290). -/
theorem fontDigitOf_of_le (p : FontDigit) (b : Byte) (h : b.toNat ≤ 0xF) : fontDigitOf p b = b.toNat := by
  cases p <;> simp [fontDigitOf]; omega

/-- The digit is R290's, under the machine's setting of the parameter. -/
theorem fontDigit_eq (b : Byte) : fontDigit b = fontDigitOf Config.fontDigit b := by
  rw [fontDigit]
  split
  · next h => rw [fontDigitOf_of_le _ _ h]
  · rfl

theorem fontDigitOf_le (p : FontDigit) (b : Byte) : fontDigitOf p b ≤ 255 := by
  have := b.isLt
  cases p <;> simp [fontDigitOf] <;> omega

/-- The glyph address is exact: 0x50 + 5 * d (R290). -/
theorem glyphAddress_toNat (d : Nat) (h : d ≤ 255) : (glyphAddress d).toNat = 0x50 + 5 * d := by
  simp [glyphAddress, fontBase, glyphHeight]; omega

theorem mem_regsUpTo (x r : Reg) : r ∈ regsUpTo x ↔ r ≤ x := by
  rw [regsUpTo, List.mem_filter, decide_eq_true_iff]
  exact ⟨fun h => h.2, fun h => ⟨mem_ascending r, h⟩⟩

theorem startColumn_lt (b : Byte) : startColumn b < 64 := Nat.mod_lt _ (by decide)

theorem startRow_lt (b : Byte) : startRow b < 32 := Nat.mod_lt _ (by decide)

/-- The BCD digits of a byte as numbers (R291). -/
theorem bcdDigits_toNat (b : Byte) :
    (bcdDigits b).map BitVec.toNat = [b.toNat / 100, b.toNat / 10 % 10, b.toNat % 10] := by
  simp [bcdDigits]

@[simp] theorem flag_true : flag true = 1#8 := rfl

@[simp] theorem flag_false : flag false = 0#8 := rfl

end Sys2Proof.Machine
end

