-- ==== Sys2Proof/Laws/Index.lean ====
section
/-! SUPPORT. What the bulk store and the bulk load do (44_keys_timers_misc.md R292, R293). -/

namespace Sys2Proof.Machine

/-! ### Storing -/

/-- A bulk store changes memory alone. -/
theorem storeRegs_frame (base : Nat) (rs : List Reg) (s : State) : { storeRegs base rs s with mem := s.mem } = s := by
  induction rs generalizing s with
  | nil => rfl
  | cons r rs ih =>
    have h := congrArg (fun t : State => { t with mem := s.mem }) (ih (s.writeMem (base + r.val) (s.readV r)))
    exact h

theorem storeRegs_eq (base : Nat) (rs : List Reg) (s : State) :
    storeRegs base rs s = { s with mem := (storeRegs base rs s).mem } := by
  have h := storeRegs_frame base rs s
  generalize storeRegs base rs s = t at *
  rw [← h]

/-- The byte at base + r holds V[r] for each stored register; every other byte is as before. -/
theorem storeRegs_readMem (base : Nat) (rs : List Reg) (s : State) (hs : ∀ r ∈ rs, base + r.val < memSize) (a : Nat) :
    (∀ r ∈ rs, a = base + r.val → (storeRegs base rs s).readMem a = s.readV r) ∧
      ((∀ r ∈ rs, a ≠ base + r.val) → (storeRegs base rs s).readMem a = s.readMem a) := by
  induction rs generalizing s with
  | nil => simp [storeRegs]
  | cons q rs ih =>
    have ih' := ih (s.writeMem (base + q.val) (s.readV q)) fun r hr => hs r (by simp [hr])
    refine ⟨fun r hr ha => ?_, fun hne => ?_⟩
    · rw [storeRegs]
      by_cases hin : r ∈ rs
      · rw [ih'.1 r hin ha, State.writeMem_readV]
      · have hrq : r = q := by simpa [hin] using hr
        subst hrq
        rw [ih'.2, State.writeMem_readMem, if_pos ⟨ha, hs r (by simp)⟩]
        intro p hp hap
        have : p = r := Fin.ext (by omega)
        exact hin (this ▸ hp)
    · rw [storeRegs, ih'.2 fun r hr => hne r (by simp [hr]), State.writeMem_readMem, if_neg]
      exact fun h => hne q (by simp) h.1

/-- A bulk store leaves FONT alone. -/
@[simp] theorem storeRegs_font (base : Nat) (rs : List Reg) (s : State) :
    (storeRegs base rs s).mem.font = s.mem.font := by
  induction rs generalizing s with
  | nil => rfl
  | cons r rs ih => rw [storeRegs, ih, State.writeMem, Memory.write_font]

theorem storeRegs_mem_wf (base : Nat) (rs : List Reg) (s : State) (h : s.mem.wf = true) :
    (storeRegs base rs s).mem.wf = true := by
  induction rs generalizing s with
  | nil => exact h
  | cons r rs ih => exact ih _ (Memory.wf_write s.mem _ _ h)

/-! ### Loading -/

/-- A bulk load changes the registers alone. -/
theorem loadRegs_frame (base : Nat) (rs : List Reg) (s : State) : { loadRegs base rs s with v := s.v } = s := by
  induction rs generalizing s with
  | nil => rfl
  | cons r rs ih =>
    have h := congrArg (fun t : State => { t with v := s.v }) (ih (s.writeV r (s.readMem (base + r.val))))
    exact h

theorem loadRegs_eq (base : Nat) (rs : List Reg) (s : State) :
    loadRegs base rs s = { s with v := (loadRegs base rs s).v } := by
  have h := loadRegs_frame base rs s
  generalize loadRegs base rs s = t at *
  rw [← h]

/-- Each loaded register holds the byte at base + r; every other register is as before. -/
theorem loadRegs_readV (base : Nat) (rs : List Reg) (s : State) (r : Reg) :
    (loadRegs base rs s).readV r = if r ∈ rs then s.readMem (base + r.val) else s.readV r := by
  induction rs generalizing s with
  | nil => simp [loadRegs]
  | cons q rs ih =>
    rw [loadRegs, ih, State.writeV_readMem, State.writeV_readV]
    by_cases hin : r ∈ rs
    · simp [hin]
    · by_cases hq : r = q <;> simp [hin, hq]

end Sys2Proof.Machine
end

