-- ==== Sys2Proof/Laws/Step.lean ====
section
/-! SUPPORT. The outcome of each meaning that has more than one, the fetch, the forms of a step, and the random draw:
one lemma per case, so that no proof splits a meaning again. -/

namespace Sys2Proof.Machine

/-! ### Fetch -/

/-- A fetch succeeds exactly up to pc = 0xFFE, and then gives the opcode at pc (40_cycle.md R121, R122). -/
theorem State.fetch_of_le (s : State) (h : s.pc.toNat ≤ 0xFFE) : s.fetch = some s.opcodeAtPc :=
  if_pos (show s.pc.toNat + 1 < memSize by rw [memSize]; omega)

theorem State.fetch_of_gt (s : State) (h : 0xFFE < s.pc.toNat) : s.fetch = none :=
  if_neg (show ¬ s.pc.toNat + 1 < memSize by rw [memSize]; omega)

/-! ### The forms of a step (R120) -/

theorem step_of_fault {s : State} {r : FaultRecord} (h : s.fault = some r) : step s = .fault (.stopped r) := by
  simp [step, h]

theorem step_of_gt {s : State} (hf : s.fault = none) (h : 0xFFE < s.pc.toNat) : step s = raiseFetch s := by
  simp [step, hf, s.fetch_of_gt h]

theorem step_of_rejected {s : State} {why : DecodeError} (hf : s.fault = none) (h : s.pc.toNat ≤ 0xFFE)
    (hd : decodeWord s.opcodeAtPc = .rejected why) : step s = raiseUnimplemented s.opcodeAtPc s.advancePc := by
  simp [step, hf, s.fetch_of_le h, hd]

theorem step_of_fetches {s : State} {i : Instr} (h : s.Fetches i) : step s = exec i s.advancePc := by
  simp [step, h.running, s.fetch_of_le h.inRange, h.decodes]

/-- Everything a step can be: stopped, a fetch fault, an unimplemented opcode, or a decoded instruction. -/
theorem step_cases (s : State) :
    (∃ r, s.fault = some r ∧ step s = .fault (.stopped r)) ∨
    (s.fault = none ∧ 0xFFE < s.pc.toNat ∧ step s = raiseFetch s) ∨
    (∃ why, s.fault = none ∧ s.pc.toNat ≤ 0xFFE ∧ decodeWord s.opcodeAtPc = .rejected why ∧
      step s = raiseUnimplemented s.opcodeAtPc s.advancePc) ∨
    ∃ i, s.Fetches i ∧ step s = exec i s.advancePc := by
  cases hf : s.fault with
  | some r => exact .inl ⟨r, rfl, step_of_fault hf⟩
  | none =>
    by_cases h : s.pc.toNat ≤ 0xFFE
    · cases hd : decodeWord s.opcodeAtPc with
      | rejected why => exact .inr (.inr (.inl ⟨why, rfl, h, rfl, step_of_rejected hf h hd⟩))
      | instr i => exact .inr (.inr (.inr ⟨i, ⟨hf, h, hd⟩, step_of_fetches ⟨hf, h, hd⟩⟩))
    · exact .inr (.inl ⟨rfl, by omega, step_of_gt hf (by omega)⟩)

/-! ### Meanings with more than one outcome -/

theorem execRet_of_pos (s : State) (h : 0 < s.sp.val) :
    execRet s = complete false { s with pc := s.stack[s.sp.val - 1]'(by omega), sp := ⟨s.sp.val - 1, by omega⟩ } := by
  rw [execRet, (s.pop_eq_some _ _).mpr ⟨h, rfl, rfl⟩]
  rfl

theorem execRet_of_zero (s : State) (h : s.sp = 0) : execRet s = raise .stackUnderflow (some (encode .ret)) none s := by
  rw [execRet, s.pop_eq_none.mpr h]

theorem execCall_of_lt (nnn : Addr12) (s : State) (h : s.sp.val < 16) :
    execCall nnn s = complete false { s with
      pc := addressOf nnn
      stack := s.stack.set s.sp.val s.pc
      sp := ⟨s.sp.val + 1, Nat.succ_lt_succ h⟩ } := by
  rw [execCall, (s.push_eq_some _ _).mpr ⟨h, rfl⟩]
  rfl

theorem execCall_of_full (nnn : Addr12) (s : State) (h : s.sp = 16) :
    execCall nnn s = raise .stackOverflow (some (encode (.call nnn))) none s := by
  rw [execCall, (s.push_eq_none _).mpr h]

theorem execLdVK_of_some (x : Reg) {s : State} {k : Key} (h : s.firstReleased = some k) :
    execLdVK x s = complete false (s.writeV x (byteOfKey k)) := by
  rw [execLdVK, h]

theorem execLdVK_of_none (x : Reg) {s : State} (h : s.firstReleased = none) :
    execLdVK x s = complete false (s.setPc (s.pc - 2#16)) := by
  rw [execLdVK, h]

/-- Out of range means: the last byte accessed lies at 0x1000 or above (20_memory.md R64). -/
theorem State.accessOutOfRange_iff (s : State) (i : Instr) :
    s.accessOutOfRange i ↔ 0 < s.bytesAccessed i ∧ memSize < s.i.toNat + s.bytesAccessed i := by
  constructor
  · rintro ⟨k, hk, h⟩
    rw [memSize]
    omega
  · rintro ⟨h0, h⟩
    rw [memSize] at h
    exact ⟨s.bytesAccessed i - 1, by omega, by omega⟩

/-- The bounds check of an instruction, in the terms of the claims: the address it reports is max(I, 0x1000) (R334). -/
theorem lowestBad_of_accessOutOfRange {s : State} {i : Instr} (h : s.accessOutOfRange i) :
    lowestBad s.i.toNat (s.bytesAccessed i) = some (max s.i.toNat 0x1000) := by
  rw [s.accessOutOfRange_iff] at h
  exact (lowestBad_eq_some _ _ _).mpr ⟨h.1, h.2, rfl⟩

theorem lowestBad_of_not_accessOutOfRange {s : State} {i : Instr} (h : ¬ s.accessOutOfRange i) :
    lowestBad s.i.toNat (s.bytesAccessed i) = none := by
  rw [s.accessOutOfRange_iff] at h
  rw [lowestBad_eq_none]
  omega

theorem execDrw_of_bad {x y : Reg} {n : Nibble} {s : State} (h : s.accessOutOfRange (.drw x y n)) :
    execDrw x y n s = raiseDataAddress (.drw x y n) (max s.i.toNat 0x1000) s := by
  have h' : lowestBad s.i.toNat (rowsDrawn n (startRow (s.readV y))) = _ := lowestBad_of_accessOutOfRange h
  simp only [execDrw, h']

theorem execDrw_of_ok {x y : Reg} {n : Nibble} {s : State} (h : ¬ s.accessOutOfRange (.drw x y n)) :
    execDrw x y n s = complete true
      (drawRows ((s.readV x).toNat % 64) ((s.readV y).toNat % 32) (s.drwRows y n) (s.writeVF 0#8)) := by
  have h' : lowestBad s.i.toNat (rowsDrawn n (startRow (s.readV y))) = none := lowestBad_of_not_accessOutOfRange h
  simp only [execDrw, h']
  rfl

theorem execLdBV_of_bad {x : Reg} {s : State} (h : s.accessOutOfRange (.ldBV x)) :
    execLdBV x s = raiseDataAddress (.ldBV x) (max s.i.toNat 0x1000) s := by
  have h' : lowestBad s.i.toNat 3 = _ := lowestBad_of_accessOutOfRange h
  simp only [execLdBV, h']

theorem execLdBV_of_ok {x : Reg} {s : State} (h : ¬ s.accessOutOfRange (.ldBV x)) :
    execLdBV x s = complete false { s with mem := s.mem.writeBytes s.i.toNat (bcdDigits (s.readV x)) } := by
  have h' : lowestBad s.i.toNat 3 = none := lowestBad_of_not_accessOutOfRange h
  simp only [execLdBV, h']

theorem execLdMemV_of_bad {x : Reg} {s : State} (h : s.accessOutOfRange (.ldMemV x)) :
    execLdMemV x s = raiseDataAddress (.ldMemV x) (max s.i.toNat 0x1000) s := by
  have h' : lowestBad s.i.toNat (x.val + 1) = _ := lowestBad_of_accessOutOfRange h
  simp only [execLdMemV, h']

theorem execLdMemV_of_ok {x : Reg} {s : State} (h : ¬ s.accessOutOfRange (.ldMemV x)) :
    execLdMemV x s = complete false ((storeRegs s.i.toNat (regsUpTo x) s).advanceI x) := by
  have h' : lowestBad s.i.toNat (x.val + 1) = none := lowestBad_of_not_accessOutOfRange h
  simp only [execLdMemV, h']

theorem execLdVMem_of_bad {x : Reg} {s : State} (h : s.accessOutOfRange (.ldVMem x)) :
    execLdVMem x s = raiseDataAddress (.ldVMem x) (max s.i.toNat 0x1000) s := by
  have h' : lowestBad s.i.toNat (x.val + 1) = _ := lowestBad_of_accessOutOfRange h
  simp only [execLdVMem, h']

theorem execLdVMem_of_ok {x : Reg} {s : State} (h : ¬ s.accessOutOfRange (.ldVMem x)) :
    execLdVMem x s = complete false ((loadRegs s.i.toNat (regsUpTo x) s).advanceI x) := by
  have h' : lowestBad s.i.toNat (x.val + 1) = none := lowestBad_of_not_accessOutOfRange h
  simp only [execLdVMem, h']

/-! ### The random draw -/

/-- A draw takes the next byte of the free sequence and counts it (42_load_alu.md R215). -/
theorem execRnd_eq (x : Reg) (kk : Byte) (s : State) :
    execRnd x kk s = .next { s with
      v := s.v.set x.val (Config.rngByte s.rngDraws &&& kk), rngDraws := s.rngDraws + 1, dw := false } := rfl

end Sys2Proof.Machine
end

