-- ==== Sys2Proof/Laws/Commands.lean ====
section
/-! SUPPORT. The host's commands, one lemma per case (60_exceptions.md R346, R350-R352; 70_reset_and_hazards.md R390,
R396). -/

namespace Sys2Proof.Machine

/-! ### Ticks -/

/-- One tick: minus 1, not below 0 (R346). -/
@[simp] theorem tick_toNat (b : Byte) : (tick b).toNat = b.toNat - 1 := by
  rw [tick]
  by_cases h : b = 0#8
  · simp [h]
  · have h0 : b.toNat ≠ 0 := fun e => h (BitVec.eq_of_toNat_eq e)
    have := b.isLt
    rw [if_neg h, BitVec.toNat_sub]
    simp only [BitVec.toNat_ofNat]
    omega

theorem tickTimers_of_none {s : State} (h : s.fault = none) :
    tickTimers s = { s with dt := tick s.dt, st := tick s.st } := by
  simp [tickTimers, h]

theorem tickTimers_of_some {s : State} {r : FaultRecord} (h : s.fault = some r) : tickTimers s = s := by
  simp [tickTimers, h]

/-! ### Steps and runs -/

theorem stepState_of_next {s t : State} (h : step s = .next t) : stepState s = t := by
  simp [stepState, h]

theorem stepState_of_fault {s : State} {r : FaultRecord} (h : s.fault = some r) : stepState s = s := by
  simp [stepState, step_of_fault h]

@[simp] theorem run_zero (s : State) : run 0 s = (s, 0) := rfl

/-- With a fault recorded no step is executed (R337). -/
theorem run_of_fault (n : Nat) {s : State} {r : FaultRecord} (h : s.fault = some r) : run n s = (s, 0) := by
  cases n <;> simp [run, h]

/-- The loop stops after a step that faults or draws (R351). -/
theorem run_succ_of_stop (n : Nat) {s : State} (hf : s.fault = none)
    (h : (stepState s).fault ≠ none ∨ (stepState s).dw = true) : run (n + 1) s = (stepState s, 1) := by
  have h' : ((stepState s).fault.isSome || (stepState s).dw) = true := by
    rcases h with h | h
    · simp [Option.isSome_iff_ne_none, h]
    · simp [h]
  rw [run, if_neg (by simp [hf]), if_pos h']

/-- Otherwise it goes on (R351). -/
theorem run_succ_of_go (n : Nat) {s : State} (hf : s.fault = none) (h1 : (stepState s).fault = none)
    (h2 : (stepState s).dw = false) :
    run (n + 1) s = ((run n (stepState s)).1, (run n (stepState s)).2 + 1) := by
  rw [run, if_neg (by simp [hf]), if_neg (by simp [h1, h2])]

/-! ### Reset and ROM install -/

theorem loadRom_of_long {image : List Byte} (path : String) (s : State) (h : 3584 < image.length) :
    loadRom (.bytes image) path s = (s, false) :=
  if_pos h

theorem loadRom_of_fits {image : List Byte} (path : String) (s : State) (h : image.length ≤ 3584) :
    loadRom (.bytes image) path s = (installRom image path s, true) :=
  if_neg (show ¬ romMax < image.length by rw [romMax]; omega)

/-- The reset contents: FONT at 0x50..0x9F and 0 elsewhere (20_memory.md R62). -/
theorem resetByte_eq (font : Font) (a : Nat) :
    resetByte font a = if h : 0x50 ≤ a ∧ a ≤ 0x9F then font[a - 0x50] else 0#8 := by
  have hb : fontBase = 0x50 := rfl
  rw [resetByte]
  by_cases h : 0x50 ≤ a ∧ a ≤ 0x9F
  · rw [dif_pos h, dif_pos (by omega)]
    rfl
  · rw [dif_neg h, dif_neg (by omega)]

/-! ### The host's word -/

theorem placePc_le (s : State) : (placePc s).toNat ≤ 0xFFE := by
  rw [placePc, memSize, progStart]
  split
  · omega
  · decide

/-- The placed word is the opcode the next step fetches. -/
theorem opcodeAtPc_placeWord (s : State) (op : Word) : (placeWord s op).opcodeAtPc = op := by
  have h := placePc_le s
  have e1 : (placeWord s op).readMem (placePc s).toNat = op.extractLsb' 8 8 := by
    simp only [State.readMem, placeWord, Memory.read_writeBytes, bytesOfWord]
    rw [if_pos ⟨le_refl _, by simp, by rw [memSize]; omega⟩, Nat.sub_self]
    rfl
  have e2 : (placeWord s op).readMem ((placePc s).toNat + 1) = op.extractLsb' 0 8 := by
    simp only [State.readMem, placeWord, Memory.read_writeBytes, bytesOfWord]
    rw [if_pos ⟨by omega, by simp, by rw [memSize]; omega⟩, Nat.add_sub_cancel_left]
    rfl
  show opcodeOf ((placeWord s op).readMem (placePc s).toNat) ((placeWord s op).readMem ((placePc s).toNat + 1)) = op
  rw [e1, e2, opcodeOf_bytesOfWord]

/-- So the very next step runs the instruction that the decoder reads from a table row's word (log 18). -/
theorem step_withFetchWord (s : State) (nbits w : Nat) (i : Instr) (h : decodeTableWord nbits w = some i) :
    step (s.withFetchWord nbits w) = exec i (s.withFetchWord nbits w).advancePc := by
  apply step_of_fetches
  refine ⟨rfl, placePc_le s, ?_⟩
  rw [State.withFetchWord, opcodeAtPc_placeWord]
  rw [decodeTableWord, decodeBytes_bytesOfWord] at h
  cases hd : decodeWord (tableWord nbits w) with
  | instr j =>
    rw [hd] at h
    simpa [Decoded.toOption] using h
  | rejected why =>
    rw [hd] at h
    simp [Decoded.toOption] at h

end Sys2Proof.Machine
end

