-- ==== Sys2Proof/Laws/PerInstr.lean ====
section
/-! SUPPORT. Per instruction, what the decoder's fields read from the one opcode the encoder writes: the operands the
pattern of 30_encoding.md R96 names, and the fixed family and sub-code. -/

namespace Sys2Proof.Laws.OpcodeFields

/-- Every field of the instruction's opcode that its pattern fixes or names (R91, R96). -/
def Statement : Instr → Prop
  | .cls => encode .cls = 0x00E0#16
  | .ret => encode .ret = 0x00EE#16
  | .sys nnn => family (encode (.sys nnn)) = 0x0#4 ∧ fieldNNN (encode (.sys nnn)) = nnn
  | .jp nnn => family (encode (.jp nnn)) = 0x1#4 ∧ fieldNNN (encode (.jp nnn)) = nnn
  | .call nnn => family (encode (.call nnn)) = 0x2#4 ∧ fieldNNN (encode (.call nnn)) = nnn
  | .seImm x kk => XK 0x3#4 x kk (encode (.seImm x kk))
  | .sneImm x kk => XK 0x4#4 x kk (encode (.sneImm x kk))
  | .seReg x y => XY 0x5#4 x y 0x0#4 (encode (.seReg x y))
  | .sneReg x y => XY 0x9#4 x y 0x0#4 (encode (.sneReg x y))
  | .jpV0 nnn => family (encode (.jpV0 nnn)) = 0xB#4 ∧ fieldNNN (encode (.jpV0 nnn)) = nnn
  | .ldImm x kk => XK 0x6#4 x kk (encode (.ldImm x kk))
  | .addImm x kk => XK 0x7#4 x kk (encode (.addImm x kk))
  | .ldReg x y => XY 0x8#4 x y 0x0#4 (encode (.ldReg x y))
  | .orReg x y => XY 0x8#4 x y 0x1#4 (encode (.orReg x y))
  | .andReg x y => XY 0x8#4 x y 0x2#4 (encode (.andReg x y))
  | .xorReg x y => XY 0x8#4 x y 0x3#4 (encode (.xorReg x y))
  | .addReg x y => XY 0x8#4 x y 0x4#4 (encode (.addReg x y))
  | .sub x y => XY 0x8#4 x y 0x5#4 (encode (.sub x y))
  | .shr x y => XY 0x8#4 x y 0x6#4 (encode (.shr x y))
  | .subn x y => XY 0x8#4 x y 0x7#4 (encode (.subn x y))
  | .shl x y => XY 0x8#4 x y 0xE#4 (encode (.shl x y))
  | .ldI nnn => family (encode (.ldI nnn)) = 0xA#4 ∧ fieldNNN (encode (.ldI nnn)) = nnn
  | .rnd x kk => XK 0xC#4 x kk (encode (.rnd x kk))
  | .drw x y n => XY 0xD#4 x y n (encode (.drw x y n))
  | .skp x => XK 0xE#4 x 0x9E#8 (encode (.skp x))
  | .sknp x => XK 0xE#4 x 0xA1#8 (encode (.sknp x))
  | .ldVDt x => XK 0xF#4 x 0x07#8 (encode (.ldVDt x))
  | .ldVK x => XK 0xF#4 x 0x0A#8 (encode (.ldVK x))
  | .ldDtV x => XK 0xF#4 x 0x15#8 (encode (.ldDtV x))
  | .ldStV x => XK 0xF#4 x 0x18#8 (encode (.ldStV x))
  | .addIV x => XK 0xF#4 x 0x1E#8 (encode (.addIV x))
  | .ldFV x => XK 0xF#4 x 0x29#8 (encode (.ldFV x))
  | .ldBV x => XK 0xF#4 x 0x33#8 (encode (.ldBV x))
  | .ldMemV x => XK 0xF#4 x 0x55#8 (encode (.ldMemV x))
  | .ldVMem x => XK 0xF#4 x 0x65#8 (encode (.ldVMem x))
where
  /-- The fields of an opcode of the form fxkk. -/
  XK (f : Nibble) (x : Reg) (kk : Byte) (op : Word) : Prop := family op = f ∧ fieldX op = x ∧ fieldKK op = kk
  /-- The fields of an opcode of the form fxyn. -/
  XY (f : Nibble) (x y : Reg) (n : Nibble) (op : Word) : Prop :=
    family op = f ∧ fieldX op = x ∧ fieldY op = y ∧ fieldN op = n

theorem xk (f : Nibble) (x : Reg) (kk : Byte) : Statement.XK f x kk (wordXK f x kk) :=
  ⟨family_wordXK f x kk, fieldX_wordXK f x kk, fieldKK_wordXK f x kk⟩

theorem xy (f : Nibble) (x y : Reg) (n : Nibble) : Statement.XY f x y n (wordXY f x y n) :=
  ⟨family_wordXY f x y n, fieldX_wordXY f x y n, fieldY_wordXY f x y n, fieldN_wordXY f x y n⟩

theorem cls : Statement .cls := rfl
theorem ret : Statement .ret := rfl
theorem sys (nnn : Addr12) : Statement (.sys nnn) := ⟨family_wordN _ _, fieldNNN_wordN _ _⟩
theorem jp (nnn : Addr12) : Statement (.jp nnn) := ⟨family_wordN _ _, fieldNNN_wordN _ _⟩
theorem call (nnn : Addr12) : Statement (.call nnn) := ⟨family_wordN _ _, fieldNNN_wordN _ _⟩
theorem seImm (x : Reg) (kk : Byte) : Statement (.seImm x kk) := xk _ _ _
theorem sneImm (x : Reg) (kk : Byte) : Statement (.sneImm x kk) := xk _ _ _
theorem seReg (x y : Reg) : Statement (.seReg x y) := xy _ _ _ _
theorem sneReg (x y : Reg) : Statement (.sneReg x y) := xy _ _ _ _
theorem jpV0 (nnn : Addr12) : Statement (.jpV0 nnn) := ⟨family_wordN _ _, fieldNNN_wordN _ _⟩
theorem ldImm (x : Reg) (kk : Byte) : Statement (.ldImm x kk) := xk _ _ _
theorem addImm (x : Reg) (kk : Byte) : Statement (.addImm x kk) := xk _ _ _
theorem ldReg (x y : Reg) : Statement (.ldReg x y) := xy _ _ _ _
theorem orReg (x y : Reg) : Statement (.orReg x y) := xy _ _ _ _
theorem andReg (x y : Reg) : Statement (.andReg x y) := xy _ _ _ _
theorem xorReg (x y : Reg) : Statement (.xorReg x y) := xy _ _ _ _
theorem addReg (x y : Reg) : Statement (.addReg x y) := xy _ _ _ _
theorem sub (x y : Reg) : Statement (.sub x y) := xy _ _ _ _
theorem shr (x y : Reg) : Statement (.shr x y) := xy _ _ _ _
theorem subn (x y : Reg) : Statement (.subn x y) := xy _ _ _ _
theorem shl (x y : Reg) : Statement (.shl x y) := xy _ _ _ _
theorem ldI (nnn : Addr12) : Statement (.ldI nnn) := ⟨family_wordN _ _, fieldNNN_wordN _ _⟩
theorem rnd (x : Reg) (kk : Byte) : Statement (.rnd x kk) := xk _ _ _
theorem drw (x y : Reg) (n : Nibble) : Statement (.drw x y n) := xy _ _ _ _
theorem skp (x : Reg) : Statement (.skp x) := xk _ _ _
theorem sknp (x : Reg) : Statement (.sknp x) := xk _ _ _
theorem ldVDt (x : Reg) : Statement (.ldVDt x) := xk _ _ _
theorem ldVK (x : Reg) : Statement (.ldVK x) := xk _ _ _
theorem ldDtV (x : Reg) : Statement (.ldDtV x) := xk _ _ _
theorem ldStV (x : Reg) : Statement (.ldStV x) := xk _ _ _
theorem addIV (x : Reg) : Statement (.addIV x) := xk _ _ _
theorem ldFV (x : Reg) : Statement (.ldFV x) := xk _ _ _
theorem ldBV (x : Reg) : Statement (.ldBV x) := xk _ _ _
theorem ldMemV (x : Reg) : Statement (.ldMemV x) := xk _ _ _
theorem ldVMem (x : Reg) : Statement (.ldVMem x) := xk _ _ _

end Sys2Proof.Laws.OpcodeFields
end

