-- ==== Sys2Proof/Tests/Slice0.lean ====
section
/-! SUPPORT. Tests on fixed values. Expected values come from the spec: the source's worked examples (S1-S8) and the
derived vectors (T1-T117) of 95_test_vectors.md, or the patterns of 30_encoding.md R96. After them, one witness for
every obligation with hypotheses, and one per clause. -/

namespace Sys2Proof.Tests

open Sys2Proof.Machine

/-! ### Small states -/

/-- The reset state with some registers written. -/
def withV (rs : List (Reg × Byte)) : State := rs.foldl (fun s p => s.writeV p.1 p.2) State.reset

/-- The state with bytes of memory written from an address on. -/
def poke (s : State) (a : Nat) (bs : List Byte) : State := { s with mem := s.mem.writeBytes a bs }

/-- One step over the opcode, placed at pc. -/
def after (s : State) (op : Word) : State := stepState (placeWord s op)

/-- A keypad on which exactly the listed keys are pressed. -/
def pad (ks : List Nat) : Keypad := Vector.ofFn (fun k : Fin 16 => decide (k.val ∈ ks))

/-- The reset state with a snapshot and a current keypad. -/
def withKeys (prev now : List Nat) : State := { State.reset with keysPrev := pad prev, keys := pad now }

/-- A fault record. -/
def record : FaultRecord := ⟨.stackUnderflow, some 0x00EE#16, 0x202#16, none⟩

/-- The reset state with that record. -/
def faulted : State := { State.reset with fault := some record }

/-- A state of the invariant far from reset: pc and a stack slot at their bounds, one byte of memory written. -/
def edge : State := poke { State.reset with pc := 0x10FE#16, stack := Vector.replicate 16 0x1000#16, sp := 16 } 0x300 [1#8]

/-- The stack depth and slot 0 of a state one call deep, for RET (T11). -/
def called : State := { State.reset with stack := State.reset.stack.set 0 0x208#16, sp := 1 }

/-! ### Well-formedness: each check refuses an ill-formed term -/

theorem test_wf_sys_not_cls : (Instr.sys 0x0E0#12).wf = false := by decide

theorem test_wf_sys_not_ret : (Instr.sys 0x0EE#12).wf = false := by decide

theorem test_wf_sys_next_to_cls : (Instr.sys 0x0E1#12).wf = true := by decide

theorem test_wf_drw : (Instr.drw 15 15 15#4).wf = true := by decide

/-! ### Decoding: a word written out from the pattern of every constructor (R96) -/

theorem test_decode_family0 :
    decodeWord 0x00E0#16 = .instr .cls ∧ decodeWord 0x00EE#16 = .instr .ret ∧
    decodeWord 0x00E1#16 = .instr (.sys 0x0E1#12) ∧ decodeWord 0x0000#16 = .instr (.sys 0#12) := by decide

theorem test_decode_flow :
    decodeWord 0b0001101010111100#16 = .instr (.jp 0xABC#12) ∧ decodeWord 0b0010000100100011#16 = .instr (.call 0x123#12) ∧
    decodeWord 0b1011111111111110#16 = .instr (.jpV0 0xFFE#12) := by decide

theorem test_decode_skips :
    decodeWord 0x37C5#16 = .instr (.seImm 7 0xC5#8) ∧ decodeWord 0x4AF1#16 = .instr (.sneImm 10 0xF1#8) ∧
    decodeWord 0x5B20#16 = .instr (.seReg 11 2) ∧ decodeWord 0x91F0#16 = .instr (.sneReg 1 15) := by decide

theorem test_decode_loads :
    decodeWord 0x6E81#16 = .instr (.ldImm 14 0x81#8) ∧ decodeWord 0x7102#16 = .instr (.addImm 1 0x02#8) ∧
    decodeWord 0xA2F0#16 = .instr (.ldI 0x2F0#12) ∧ decodeWord 0xC30F#16 = .instr (.rnd 3 0x0F#8) := by decide

theorem test_decode_family8 :
    decodeWord 0x8A30#16 = .instr (.ldReg 10 3) ∧ decodeWord 0x8A31#16 = .instr (.orReg 10 3) ∧
    decodeWord 0x8A32#16 = .instr (.andReg 10 3) ∧ decodeWord 0x8A33#16 = .instr (.xorReg 10 3) ∧
    decodeWord 0x8A34#16 = .instr (.addReg 10 3) ∧ decodeWord 0x8A35#16 = .instr (.sub 10 3) ∧
    decodeWord 0x8A36#16 = .instr (.shr 10 3) ∧ decodeWord 0x8A37#16 = .instr (.subn 10 3) ∧
    decodeWord 0x8A3E#16 = .instr (.shl 10 3) := by decide

theorem test_decode_draw_and_key_skips :
    decodeWord 0xD12B#16 = .instr (.drw 1 2 0xB#4) ∧ decodeWord 0xE29E#16 = .instr (.skp 2) ∧
    decodeWord 0xE2A1#16 = .instr (.sknp 2) := by decide

theorem test_decode_familyF :
    decodeWord 0xF307#16 = .instr (.ldVDt 3) ∧ decodeWord 0xF50A#16 = .instr (.ldVK 5) ∧
    decodeWord 0xF115#16 = .instr (.ldDtV 1) ∧ decodeWord 0xF118#16 = .instr (.ldStV 1) ∧
    decodeWord 0xF21E#16 = .instr (.addIV 2) ∧ decodeWord 0xF429#16 = .instr (.ldFV 4) ∧
    decodeWord 0xF333#16 = .instr (.ldBV 3) ∧ decodeWord 0xFC55#16 = .instr (.ldMemV 12) ∧
    decodeWord 0xF265#16 = .instr (.ldVMem 2) := by decide

theorem test_decode_rejected :
    decodeWord 0x5121#16 = .rejected .family5 ∧ decodeWord 0x912F#16 = .rejected .family9 ∧
    decodeWord 0x8018#16 = .rejected .family8 ∧ decodeWord 0x801F#16 = .rejected .family8 ∧
    decodeWord 0xE29F#16 = .rejected .familyE ∧ decodeWord 0xF0FF#16 = .rejected .familyF ∧
    decodeBytes [0x60#8] = (.rejected .truncated, [0x60#8]) := by decide

/-- High byte at the lower address (R68), the rest of the list kept. -/
theorem test_decode_bytes : decodeBytes [0x61#8, 0x02#8, 0x99#8] = (.instr (.ldImm 1 0x02#8), [0x99#8]) := by decide

theorem test_decode_table_word :
    decodeTableWord 16 0x6102 = some (.ldImm 1 0x02#8) ∧ decodeTableWord 16 0x8018 = none := by decide

theorem test_encode : encode (.drw 1 2 0xB#4) = 0xD12B#16 ∧ encode (.ldVMem 12) = 0xFC65#16 := by decide

/-! ### The cycle -/

/-- S3. -/
theorem test_S3_step : (stepState (poke State.reset 0x200 [0x61#8, 0x02#8])).readV 1 = 2#8 ∧
    (stepState (poke State.reset 0x200 [0x61#8, 0x02#8])).pc = 0x202#16 := by decide

/-- T2: the last even address is executed, and the step after it faults. -/
theorem test_T2_top_of_memory :
    (after { State.reset with pc := 0xFFE#16 } 0x0000#16).pc = 0x1000#16 ∧
    (stepState (after { State.reset with pc := 0xFFE#16 } 0x0000#16)).fault =
      some ⟨.fetchOutOfRange, none, 0x1000#16, some 0x1000⟩ := by decide

/-- T3. -/
theorem test_T3_fetch_fault : stepState { State.reset with pc := 0xFFF#16 } =
    { State.reset with pc := 0xFFF#16, fault := some ⟨.fetchOutOfRange, none, 0x0FFF#16, some 0x1000⟩ } := by decide

/-- T4. -/
theorem test_T4_odd_pc : (after { State.reset with pc := 0x201#16 } 0x6007#16).readV 0 = 7#8 ∧
    (after { State.reset with pc := 0x201#16 } 0x6007#16).pc = 0x203#16 := by decide

/-- T5. -/
theorem test_T5_faulted : step faulted = .fault (.stopped record) ∧ stepReply faulted = .fault record :=
  ⟨step_of_fault rfl, by decide⟩

/-- T6. -/
theorem test_T6_dw_cleared : (after { State.reset with dw := true } 0x6000#16).dw = false := by decide

/-- T25, T56, T84, T105. -/
theorem test_unimplemented :
    (after State.reset 0x5121#16).fault = some ⟨.unimplementedInstruction, some 0x5121#16, 0x202#16, none⟩ ∧
    (after State.reset 0x8018#16).fault = some ⟨.unimplementedInstruction, some 0x8018#16, 0x202#16, none⟩ ∧
    (after State.reset 0xE29F#16).fault = some ⟨.unimplementedInstruction, some 0xE29F#16, 0x202#16, none⟩ ∧
    (after State.reset 0xF0FF#16).fault = some ⟨.unimplementedInstruction, some 0xF0FF#16, 0x202#16, none⟩ := by decide

/-- The host's word is what the next step runs, also where nothing can be fetched at pc. -/
theorem test_withFetchWord :
    (stepState (State.reset.withFetchWord 16 0x6102)).readV 1 = 2#8 ∧
    (stepState ({ faulted with pc := 0x1000#16 }.withFetchWord 16 0x6102)).readV 1 = 2#8 := by decide

/-! ### Family 0x0, jumps, call, skips -/

/-- T10. -/
theorem test_T10_cls : (after ((withV [(15, 7#8)]).setPixel 5 5 true) 0x00E0#16).pixel 5 5 = false ∧
    (after ((withV [(15, 7#8)]).setPixel 5 5 true) 0x00E0#16).readV 15 = 7#8 := by decide

/-- T11. -/
theorem test_T11_ret : (after called 0x00EE#16).pc = 0x208#16 ∧ (after called 0x00EE#16).sp = 0 ∧
    (after called 0x00EE#16).stack[0] = 0x208#16 := by decide

/-- T12. -/
theorem test_T12_ret_empty : (after State.reset 0x00EE#16).fault =
    some ⟨.stackUnderflow, some 0x00EE#16, 0x202#16, none⟩ := by decide

/-- T13. -/
theorem test_T13_sys : after State.reset 0x00E1#16 =
    { placeWord State.reset 0x00E1#16 with pc := 0x202#16 } := by decide

/-- T15. -/
theorem test_T15_jp : (after State.reset 0x1234#16).pc = 0x234#16 := by decide

/-- T16. -/
theorem test_T16_jpV0 : (after (withV [(0, 0x10#8)]) 0xB300#16).pc = 0x310#16 := by decide

/-- T17: not masked to 12 bits. -/
theorem test_T17_jpV0_beyond : (after (withV [(0, 0x01#8)]) 0xBFFF#16).pc = 0x1000#16 := by decide

/-- T18. -/
theorem test_T18_call :
    (after { State.reset with pc := 0x206#16 } 0x2210#16).stack[0] = 0x208#16 ∧
    (after { State.reset with pc := 0x206#16 } 0x2210#16).sp = 1 ∧
    (after { State.reset with pc := 0x206#16 } 0x2210#16).pc = 0x210#16 := by decide

/-- T19. -/
theorem test_T19_call_full : (after { State.reset with sp := 16 } 0x2400#16).fault =
    some ⟨.stackOverflow, some 0x2400#16, 0x202#16, none⟩ := by decide

/-- T20, T21, T27: the skipped word is not fetched. -/
theorem test_T20_seImm : (after (withV [(3, 0x42#8)]) 0x3342#16).pc = 0x204#16 ∧
    (after (withV [(3, 0x41#8)]) 0x3342#16).pc = 0x202#16 ∧
    (after { State.reset with pc := 0xFFC#16 } 0x3000#16).pc = 0x1000#16 := by decide

/-- T22. -/
theorem test_T22_sneImm : (after (withV [(3, 0x41#8)]) 0x4342#16).pc = 0x204#16 ∧
    (after (withV [(3, 0x42#8)]) 0x4342#16).pc = 0x202#16 := by decide

/-- T23. -/
theorem test_T23_seReg : (after (withV [(1, 7#8), (2, 7#8)]) 0x5120#16).pc = 0x204#16 ∧
    (after (withV [(1, 7#8), (2, 8#8)]) 0x5120#16).pc = 0x202#16 := by decide

/-- T24. -/
theorem test_T24_sneReg : (after (withV [(1, 7#8), (2, 8#8)]) 0x9120#16).pc = 0x204#16 ∧
    (after (withV [(1, 7#8), (2, 7#8)]) 0x9120#16).pc = 0x202#16 := by decide

/-! ### Loads and ALU: Vx, then VF -/

/-- Vx and VF after one step. -/
def xf (s : State) (op : Word) (x : Reg) : Byte × Byte := ((after s op).readV x, (after s op).readV 15)

/-- T30. -/
theorem test_T30_ldImm : xf State.reset 0x6AFF#16 10 = (0xFF#8, 0#8) := by decide

/-- T31: no carry flag. -/
theorem test_T31_addImm : xf (withV [(2, 0xF0#8), (15, 3#8)]) 0x7220#16 2 = (0x10#8, 3#8) := by decide

/-- T33. -/
theorem test_T33_ldReg : xf (withV [(1, 9#8), (15, 3#8)]) 0x8010#16 0 = (9#8, 3#8) := by decide

/-- T34. -/
theorem test_T34_or : xf (withV [(0, 0x0C#8), (1, 0x0A#8), (15, 5#8)]) 0x8011#16 0 = (0x0E#8, 0#8) := by decide

/-- T35. -/
theorem test_T35_and : xf (withV [(0, 0x0C#8), (1, 0x0A#8), (15, 5#8)]) 0x8012#16 0 = (0x08#8, 0#8) := by decide

/-- T36. -/
theorem test_T36_xor : xf (withV [(0, 0x0C#8), (1, 0x0A#8), (15, 5#8)]) 0x8013#16 0 = (0x06#8, 0#8) := by decide

/-- S4, T38. -/
theorem test_S4_addReg : xf (withV [(0, 0xFA#8), (1, 0x0A#8)]) 0x8014#16 0 = (0x04#8, 1#8) ∧
    xf (withV [(0, 1#8), (1, 2#8), (15, 1#8)]) 0x8014#16 0 = (0x03#8, 0#8) := by decide

/-- T39, T40, T41: the flag register as an operand. -/
theorem test_T39_addReg_vf : (after (withV [(15, 0xFF#8), (1, 1#8)]) 0x8F14#16).readV 15 = 1#8 ∧
    xf (withV [(1, 0x10#8), (15, 0xF0#8)]) 0x81F4#16 1 = (0#8, 1#8) ∧
    (after (withV [(15, 0x80#8)]) 0x8FF4#16).readV 15 = 1#8 := by decide

/-- T42, T43, T44. -/
theorem test_T42_sub : xf (withV [(0, 5#8), (1, 3#8)]) 0x8015#16 0 = (2#8, 1#8) ∧
    xf (withV [(0, 3#8), (1, 5#8)]) 0x8015#16 0 = (0xFE#8, 0#8) ∧
    xf (withV [(0, 7#8)]) 0x8005#16 0 = (0#8, 1#8) := by decide

/-- T45. -/
theorem test_T45_sub_vf : (after (withV [(15, 3#8), (1, 5#8)]) 0x8F15#16).readV 15 = 0#8 := by decide

/-- T46, T47. -/
theorem test_T46_shr : xf (withV [(0, 0xFF#8), (1, 5#8)]) 0x8016#16 0 = (2#8, 1#8) ∧
    xf (withV [(1, 5#8)]) 0x8116#16 1 = (2#8, 1#8) := by decide

/-- T48. -/
theorem test_T48_shr_vf : (after (withV [(1, 3#8)]) 0x8F16#16).readV 15 = 1#8 := by decide

/-- T49, T50. -/
theorem test_T49_subn : xf (withV [(0, 3#8), (1, 5#8)]) 0x8017#16 0 = (2#8, 1#8) ∧
    xf (withV [(0, 5#8), (1, 3#8)]) 0x8017#16 0 = (0xFE#8, 0#8) := by decide

/-- T51, T52. -/
theorem test_T51_subn_vf : (after (withV [(15, 5#8), (1, 3#8)]) 0x8F17#16).readV 15 = 0#8 ∧
    (after (withV [(15, 7#8)]) 0x8FF7#16).readV 15 = 1#8 := by decide

/-- T53, T55. -/
theorem test_T53_shl : xf (withV [(1, 0x81#8)]) 0x801E#16 0 = (2#8, 1#8) ∧
    xf (withV [(1, 0x40#8)]) 0x801E#16 0 = (0x80#8, 0#8) := by decide

/-- T54. -/
theorem test_T54_shl_vf : (after (withV [(1, 0x80#8)]) 0x8F1E#16).readV 15 = 1#8 := by decide

/-- T58. -/
theorem test_T58_ldI : (after State.reset 0xA2F0#16).i = 0x2F0#16 := by decide

/-- T59, T60: the drawn byte is a free value; what is fixed is the mask, and that one draw is taken. -/
theorem test_T59_rnd : (after State.reset 0xC30F#16).readV 3 = (Config.rngByte 0 &&& 0x0F#8) := by rfl

theorem test_T60_rnd_takes_a_draw : (after State.reset 0xC300#16).rngDraws = 1 := by rfl

/-! ### The draw -/

/-- The columns of a row that are lit. -/
def lit (s : State) (r : Fin 32) : List Nat :=
  ((List.finRange 64).filter (fun c => s.pixel c r)).map (fun c => c.val)

/-- A state with I and the sprite bytes there. -/
def sprite (a : Nat) (bs : List Byte) (rs : List (Reg × Byte)) : State :=
  { poke (withV rs) a bs with i := BitVec.ofNat 16 a }

/-- S5, S8, T71, T75, T76: drawn twice, clipped at the right edge, wrapped at the start, a collision, and VF read as a
coordinate before it is reset. -/
theorem test_S5_draw : let t := after (sprite 0x300 [0x80#8] []) 0xD011#16
    let u := after ((sprite 0x300 [0xC0#8] []).setPixel 0 0 true) 0xD011#16
    (lit t 0 = [0] ∧ t.readV 15 = 0#8 ∧ t.dw = true ∧ lit (after t 0xD011#16) 0 = [] ∧
      (after t 0xD011#16).readV 15 = 1#8) ∧
    (lit u 0 = [1] ∧ u.readV 15 = 1#8) ∧
    lit (after (sprite 0x300 [0xFF#8] [(0, 62#8)]) 0xD011#16) 0 = [62, 63] ∧
    lit (after (sprite 0x300 [0xC0#8] [(0, 66#8), (1, 33#8)]) 0xD011#16) 1 = [2, 3] ∧
    lit (after (sprite 0x300 [0xFF#8] [(15, 62#8)]) 0xDF11#16) 0 = [62, 63] := by decide

/-- T72, T73, T74: rows below the plane are dropped with their bytes, a row that is drawn from beyond memory faults, and
a draw of no rows only resets VF and sets DW. -/
theorem test_T72_draw_edges : let t := after (sprite 0xFFE [0x80#8, 0x80#8] [(1, 30#8)]) 0xD015#16
    let u := after (sprite 0xFFE [] [(15, 7#8)]) 0xD015#16
    let w := after (sprite 0x1005 [] [(15, 9#8)]) 0xD010#16
    (lit t 30 = [0] ∧ lit t 31 = [0] ∧ t.fault = none) ∧
    (u.fault = some ⟨.dataAddressOutOfRange, some 0xD015#16, 0x202#16, some 0x1000⟩ ∧ u.readV 15 = 7#8 ∧
      u.dw = false) ∧
    (w.readV 15 = 0#8 ∧ w.dw = true ∧ w.fault = none) := by decide

/-! ### Keys, timers and the 0xF family -/

/-- T80, T81, T83. -/
theorem test_T80_skp : (after ((withKeys [] [5]).writeV 2 5#8) 0xE29E#16).pc = 0x204#16 ∧
    (after ((withKeys [] [3]).writeV 2 0x13#8) 0xE29E#16).pc = 0x204#16 ∧
    (after ((withKeys [5] []).writeV 2 5#8) 0xE29E#16).pc = 0x202#16 := by decide

/-- T82. -/
theorem test_T82_sknp : (after ((withKeys [5] []).writeV 2 0xF5#8) 0xE2A1#16).pc = 0x204#16 ∧
    (after ((withKeys [] [5]).writeV 2 0xF5#8) 0xE2A1#16).pc = 0x202#16 := by decide

/-- T85. -/
theorem test_T85_ldVDt : (after { State.reset with dt := 0x3C#8 } 0xF307#16).readV 3 = 0x3C#8 := by decide

/-- T86, T89: a release stores the lowest released key. -/
theorem test_T86_ldVK : (after (withKeys [3] []) 0xF50A#16).readV 5 = 3#8 ∧
    (after (withKeys [3] []) 0xF50A#16).pc = 0x202#16 ∧
    (after (withKeys [0, 4, 9, 12] [0, 12]) 0xF10A#16).readV 1 = 4#8 := by decide

/-- T87, T88: held, or only pressed, the instruction comes again. -/
theorem test_T87_ldVK_waits : (after (withKeys [3] [3]) 0xF50A#16).pc = 0x200#16 ∧
    (after (withKeys [] [3]) 0xF50A#16).pc = 0x200#16 := by decide

/-- T90. -/
theorem test_T90_ldDtV : (after (withV [(1, 0x10#8)]) 0xF115#16).dt = 0x10#8 := by decide

/-- T91. -/
theorem test_T91_ldStV : (after (withV [(1, 5#8)]) 0xF118#16).st = 5#8 ∧
    soundOn (after (withV [(1, 5#8)]) 0xF118#16) = true := by decide

/-- T92, T93. -/
theorem test_T92_addIV : (after { withV [(2, 0x20#8)] with i := 0x300#16 } 0xF21E#16).i = 0x320#16 ∧
    (after { withV [(0, 1#8), (15, 9#8)] with i := 0xFFFF#16 } 0xF01E#16).i = 0#16 ∧
    (after { withV [(0, 1#8), (15, 9#8)] with i := 0xFFFF#16 } 0xF01E#16).readV 15 = 9#8 := by decide

/-- T94: the same under both settings of P_FONT_DIGIT. -/
theorem test_T94_ldFV : (after (withV [(4, 0x0A#8)]) 0xF429#16).i = 0x82#16 := by decide

/-- T95: the two settings, through the digit each makes. -/
theorem test_T95_font_digit : glyphAddress (fontDigitOf .lowNibble 0x1A#8) = 0x82#16 ∧
    glyphAddress (fontDigitOf .fullByte 0x1A#8) = 0xD2#16 := by decide

/-- T96, T97. -/
theorem test_T96_bcd : let t := after (sprite 0x300 [] [(3, 156#8)]) 0xF333#16
    let u := after (sprite 0xFFD [] [(0, 255#8)]) 0xF033#16
    (t.readMem 0x300, t.readMem 0x301, t.readMem 0x302, t.i) = (1#8, 5#8, 6#8, 0x300#16) ∧
      (u.readMem 0xFFD, u.readMem 0xFFE, u.readMem 0xFFF) = (2#8, 5#8, 5#8) := by decide

/-- T98. -/
theorem test_T98_bcd_fault : after (sprite 0xFFE [] []) 0xF033#16 = { placeWord (sprite 0xFFE [] []) 0xF033#16 with
    pc := 0x202#16
    fault := some ⟨.dataAddressOutOfRange, some 0xF033#16, 0x202#16, some 0x1000⟩ } := by decide

/-- T99, T100: up to the last byte of memory. -/
theorem test_T99_store : let t := after (sprite 0x310 [] [(0, 0x0C#8)]) 0xF055#16
    let u := after (sprite 0xFF0 [] [(0, 1#8), (15, 0xAB#8)]) 0xFF55#16
    t.readMem 0x310 = 0x0C#8 ∧ t.i = 0x311#16 ∧ u.readMem 0xFF0 = 1#8 ∧ u.readMem 0xFFF = 0xAB#8 ∧
      u.i = 0x1000#16 := by decide

/-- T101. -/
theorem test_T101_store_fault : let t := after (sprite 0xFF1 [] [(0, 1#8)]) 0xFF55#16
    t.fault = some ⟨.dataAddressOutOfRange, some 0xFF55#16, 0x202#16, some 0x1000⟩ ∧ t.i = 0xFF1#16 ∧
      t.readMem 0xFF1 = 0#8 := by decide

/-- T102, T104: also from the font. -/
theorem test_T102_load : let t := after (sprite 0x300 [1#8, 5#8, 6#8] [(3, 9#8)]) 0xF265#16
    let u := after (sprite 0x50 [] []) 0xF465#16
    (t.readV 0, t.readV 1, t.readV 2, t.readV 3, t.i) = (1#8, 5#8, 6#8, 9#8, 0x303#16) ∧
      (u.readV 0, u.readV 1, u.readV 4, u.i) = (0xF0#8, 0x90#8, 0xF0#8, 0x55#16) := by decide

/-- T103. -/
theorem test_T103_load_fault : (after (sprite 0x1005 [] []) 0xF065#16).fault =
    some ⟨.dataAddressOutOfRange, some 0xF065#16, 0x202#16, some 0x1005⟩ := by decide

/-! ### Memory, and the commands of the host -/

/-- D26's table: the first and last bytes of glyphs 0 and F and glyph 7 at 0x73; and R8: FONT may be any other 80 bytes,
which reset() keeps. -/
theorem test_D26_font :
    (State.reset.readMem 0x4F, State.reset.readMem 0x50, State.reset.readMem 0x54, State.reset.readMem 0x9B,
      State.reset.readMem 0x9F, State.reset.readMem 0xA0) = (0#8, 0xF0#8, 0xF0#8, 0xF0#8, 0x80#8, 0#8) ∧
    [0x73, 0x74, 0x75, 0x76, 0x77].map State.reset.readMem = [0xF0#8, 0x10#8, 0x20#8, 0x40#8, 0x40#8] ∧
    (resetCore (poke (State.powerOn (Vector.replicate 80 0xAA#8)) 0x50 [1#8])).readMem 0x50 = 0xAA#8 := by decide

/-- Equal memories are equal lists: a write back of the reset contents removes the entry. -/
theorem test_memory_canonical : ((State.reset.mem.write 0x300 7#8).write 0x300 0#8) = State.reset.mem ∧
    ((State.reset.mem.write 0x50 7#8).write 0x50 0xF0#8) = State.reset.mem ∧
    (State.reset.mem.write 0x302 1#8).write 0x300 2#8 = (State.reset.mem.write 0x300 2#8).write 0x302 1#8 := by decide

/-- S6, T110, T111. -/
theorem test_S6_ticks : (tickTimers (tickTimers { State.reset with st := 2#8, dt := 1#8 })).st = 0#8 ∧
    (tickTimers (tickTimers { State.reset with st := 2#8, dt := 1#8 })).dt = 0#8 ∧
    (tickTimers { faulted with dt := 4#8 }).dt = 4#8 := by decide

/-- T112. -/
theorem test_T112_run_faulted : run 10 faulted = (faulted, 0) := by decide

/-- T116, T117. -/
theorem test_T117_run : (run 2 { State.reset with dw := true }).2 = 2 ∧ (run 3 State.reset).1.pc = 0x206#16 := by decide

/-- T78: a run stops after the draw. -/
theorem test_T78_run_stops : (run 5 (placeWord (sprite 0x300 [0xFF#8] []) 0xD011#16)).2 = 1 := by decide

/-- T113. -/
theorem test_T113_reset : resetCore { faulted with romLoaded := true, romPath := "a", dt := 3#8 } =
    { State.reset with romLoaded := true, romPath := "a" } := by decide

/-- S2, T114, T115 and P6's last load. -/
theorem test_T115_loadRom : loadRom .unreadable "x" faulted = (faulted, false) ∧
    loadRom (.bytes []) "e" faulted = ({ State.reset with romLoaded := true, romPath := "e" }, true) ∧
    (loadRom (.bytes [0x61#8, 0x07#8]) "q" faulted).1.readMem 0x201 = 0x07#8 := by decide

/-- P4, frame 2 with one step: the release is seen, and the timers tick after the run. -/
theorem test_P4_frame : let s := placeWord { State.reset with keys := pad [3], dt := 3#8 } 0xF30A#16
    (frame (pad []) 1 s).1.readV 3 = 3#8 ∧ (frame (pad []) 1 s).1.dt = 2#8 ∧ (frame (pad []) 1 s).2 = 1 := by decide

/-! ### Witnesses: every hypothesis of the obligations is met, by a concrete state and operands, clause by clause -/

/-- A state whose next step fetches the opcode. -/
def placed (op : Word) : State := placeWord State.reset op

theorem placed_fetches (op : Word) (i : Instr) (h : decodeWord op = .instr i) : (placed op).Fetches i :=
  ⟨rfl, placePc_le _, by rw [placed, opcodeAtPc_placeWord, h]⟩

theorem inRange_iff (s : State) (i : Instr) :
    ¬ s.accessOutOfRange i ↔ ¬ (0 < s.bytesAccessed i ∧ memSize < s.i.toNat + s.bytesAccessed i) :=
  not_congr (s.accessOutOfRange_iff i)

/-- The next state an outcome holds, if it is one. -/
def nextOf : Result → Option State
  | .next t => some t
  | .fault _ => none
  | .refused _ => none

theorem next_with {r : Result} (p : State → Prop) [DecidablePred p] (h : (nextOf r).any (fun t => decide (p t)) = true) :
    ∃ t, r = .next t ∧ p t := by
  cases r with
  | next t => exact ⟨t, rfl, by simpa [nextOf] using h⟩
  | fault _ => simp [nextOf] at h
  | refused _ => simp [nextOf] at h

theorem next_of {r : Result} (h : (nextOf r).isSome = true) : ∃ t, r = .next t := by
  cases r with
  | next t => exact ⟨t, rfl⟩
  | fault _ => simp [nextOf] at h
  | refused _ => simp [nextOf] at h

/-- A ROM image one byte too long, and the longest that fits. -/
theorem image_lengths : (List.replicate 3585 0#8).length = 3585 ∧ (List.replicate 3584 0#8).length = 3584 :=
  ⟨List.length_replicate, List.length_replicate⟩

theorem edge_inv : edge.Inv := ⟨by decide, by decide, by decide⟩

theorem witness_DecodeOfEncodeIsTheInstruction :
    (Instr.drw 15 0 15#4).wf = true ∧ (Instr.sys 0xFFF#12).wf = true ∧ (Instr.sys 0x0E1#12).wf = true := by decide

theorem witness_EncodeOfDecodeIsTheOpcode :
    decodeWord 0xFF65#16 = .instr (.ldVMem 15) ∧ decodeWord 0x0FFF#16 = .instr (.sys 0xFFF#12) := by decide

/-- One opcode in each of the five rows at its lowest or highest sub-code, and their neighbours that decode. -/
theorem witness_UnimplementedOpcodesAreExactlyTheTable :
    (∃ w, decodeWord 0x5001#16 = .rejected w) ∧ (∃ w, decodeWord 0x900F#16 = .rejected w) ∧
    (∃ w, decodeWord 0x800D#16 = .rejected w) ∧ (∃ w, decodeWord 0xE0A0#16 = .rejected w) ∧
    (∃ w, decodeWord 0xF066#16 = .rejected w) ∧ decodeWord 0x800E#16 = .instr (.shl 0 0) ∧
    decodeWord 0xE0A1#16 = .instr (.sknp 0) ∧ decodeWord 0xF065#16 = .instr (.ldVMem 0) :=
  ⟨⟨.family5, by decide⟩, ⟨.family9, by decide⟩, ⟨.family8, by decide⟩, ⟨.familyE, by decide⟩,
    ⟨.familyF, by decide⟩, by decide⟩

theorem witness_StepExecutesTheDecodedInstruction : (placed 0xD12B#16).Fetches (.drw 1 2 0xB#4) :=
  placed_fetches _ _ (by decide)

theorem witness_UnimplementedOpcodeIsRecorded : (placed 0x8018#16).fault = none ∧
    (placed 0x8018#16).pc.toNat ≤ 0xFFE ∧ decodeWord (placed 0x8018#16).opcodeAtPc = .rejected .family8 := by decide

theorem witness_FetchBeyondMemoryIsRecorded :
    ({ State.reset with pc := 0xFFF#16 } : State).fault = none ∧
    0xFFE < ({ State.reset with pc := 0xFFF#16 } : State).pc.toNat := by decide

theorem witness_FaultedMachineExecutesNothing : faulted.fault = some record := rfl

/-- Both sides: a machine that goes on and one that does not. -/
theorem witness_StepGoesOnExactlyWithoutAFault : State.reset.fault = none ∧ faulted.fault ≠ none := by decide

/-- A step that is due no fault, and one due each fault. -/
theorem witness_FaultsOfInstructionsAreExactlyThoseDue :
    ((placed 0x6102#16).Fetches (.ldImm 1 2#8) ∧ ∃ t, step (placed 0x6102#16) = .next t) ∧
    ((placed 0x00EE#16).Fetches .ret ∧ (∃ t, step (placed 0x00EE#16) = .next t) ∧
      (placed 0x00EE#16).Due .ret .stackUnderflow none) :=
  ⟨⟨placed_fetches _ _ (by decide), next_of (by decide)⟩, placed_fetches _ _ (by decide), next_of (by decide),
    .underflow rfl⟩

/-- The other two causes: a full stack, and the byte at 0x1000, for each of the four memory instructions. -/
theorem witness_Due :
    edge.Due (.call 0#12) .stackOverflow none ∧
    (sprite 0xFFE [] []).Due (.ldBV 0) .dataAddressOutOfRange (some 0x1000) ∧
    (sprite 0xFFE [] []).Due (.drw 0 1 5#4) .dataAddressOutOfRange (some 0x1000) ∧
    (sprite 0xFFF [] []).Due (.ldMemV 1) .dataAddressOutOfRange (some 0x1000) ∧
    (sprite 0x1005 [] []).Due (.ldVMem 0) .dataAddressOutOfRange (some 0x1005) :=
  ⟨.overflow _ rfl, .bounds _ _ 2 (by decide) (by decide) (by decide) (by decide),
    .bounds _ _ 2 (by decide) (by decide) (by decide) (by decide),
    .bounds _ _ 1 (by decide) (by decide) (by decide) (by decide),
    .bounds _ _ 0 (by decide) (by decide) (by decide) (by decide)⟩

/-- A fault after the fetch, and a fault of the fetch. -/
theorem witness_FaultsArePrecise :
    ((placed 0x8018#16).fault = none ∧ (placed 0x8018#16).pc.toNat ≤ 0xFFE ∧
      ∃ t, step (placed 0x8018#16) = .next t ∧
        t.fault = some ⟨.unimplementedInstruction, some 0x8018#16, 0x202#16, none⟩) ∧
    (∃ t, step { State.reset with pc := 0xFFF#16 } = .next t ∧
      t.fault = some ⟨.fetchOutOfRange, none, 0xFFF#16, some 0x1000⟩) :=
  ⟨⟨by decide, by decide, next_with _ (by decide)⟩, next_with _ (by decide)⟩

/-- A completed draw, a completed step of another family, and a faulting step. -/
theorem witness_DisplayWaitFollowsTheExecutedOpcode :
    (∃ t, step (placed 0xD000#16) = .next t ∧ t.fault = none) ∧
    (∃ t, step (placed 0x6102#16) = .next t ∧ t.fault = none) ∧
    ∃ t, step (placed 0x8018#16) = .next t ∧ t.fault ≠ none :=
  ⟨next_with _ (by decide), next_with _ (by decide), next_with _ (by decide)⟩

theorem witness_CallPushesTheReturnAddress :
    State.reset.sp.val < 16 ∧ ({ State.reset with sp := 15 } : State).sp.val < 16 := by decide

theorem witness_RetPopsTheReturnAddress : 0 < called.sp.val ∧ 0 < edge.sp.val := by decide

theorem witness_StackLimitsAreRecorded : edge.sp = 16 ∧ State.reset.sp = 0 := by decide

theorem witness_RetUndoesCall :
    State.reset.sp.val < 16 ∧ ({ State.reset with sp := 15 } : State).sp.val < 16 := by decide

/-- The last byte of a row at 0xFFF; rows dropped below the plane; n = 0 with I beyond memory. -/
theorem witness_DrwXorsTheClippedSprite :
    ¬ (sprite 0xFFF [] []).accessOutOfRange (.drw 0 1 1#4) ∧
    ¬ (sprite 0xFFE [] [(1, 30#8)]).accessOutOfRange (.drw 0 1 5#4) ∧
    ¬ (sprite 0x1005 [] []).accessOutOfRange (.drw 15 15 0#4) :=
  ⟨(inRange_iff _ _).mpr (by decide), (inRange_iff _ _).mpr (by decide), (inRange_iff _ _).mpr (by decide)⟩

theorem witness_DrwOfHeightZeroDrawsNothing : 1#4 ≠ 0#4 ∧ 15#4 ≠ 0#4 := by decide

theorem witness_DrawingTwiceRestoresThePlane :
    (0 : Reg) ≠ Reg.f ∧ (14 : Reg) ≠ Reg.f ∧ ¬ (sprite 0xFFF [0xFF#8] []).accessOutOfRange (.drw 0 14 1#4) :=
  ⟨by decide, by decide, (inRange_iff _ _).mpr (by decide)⟩

/-- Key 9 is released while lower keys are held, pressed or idle; key 0 alone; key 15 alone. -/
theorem witness_KeyWaitStoresTheLowestReleasedKey :
    (let s := withKeys [4, 9, 12] [4, 5]
     s.keysPrev[9] = true ∧ s.keys[9] = false ∧
      ∀ j : Key, j < 9 → s.keysPrev[j.val] = true → s.keys[j.val] = true) ∧
    (let s := withKeys [0] []
     s.keysPrev[0] = true ∧ s.keys[0] = false) ∧
    (let s := withKeys [15] []
     s.keysPrev[15] = true ∧ s.keys[15] = false ∧
      ∀ j : Key, j < 15 → s.keysPrev[j.val] = true → s.keys[j.val] = true) := by decide

theorem witness_KeyWaitRepeatsUntilARelease : (placeWord (withKeys [3] [3, 4]) 0xF50A#16).Fetches (.ldVK 5) ∧
    ∀ k : Key, (placeWord (withKeys [3] [3, 4]) 0xF50A#16).keysPrev[k.val] = true →
      (placeWord (withKeys [3] [3, 4]) 0xF50A#16).keys[k.val] = true :=
  ⟨⟨rfl, placePc_le _, by rw [opcodeAtPc_placeWord]; decide⟩, by decide⟩

theorem witness_TimerMovesCopyAByte : State.reset.fault = none := rfl

theorem witness_FontAddressUnderEachSetting :
    ((withV [(4, 0x0F#8)]).readV 4).toNat ≤ 0xF ∧ (State.reset.readV 4).toNat ≤ 0xF := by decide

/-- The last address from which three bytes fit, and an unchanged byte on either side. -/
theorem witness_BcdStoresThreeDigits : (sprite 0xFFD [] []).i.toNat + 2 < 0x1000 ∧
    0xFFC < (sprite 0xFFD [] []).i.toNat ∧ (sprite 0xFFC [] []).i.toNat + 2 < 0xFFF := by decide

theorem witness_StoreRegsWritesTheBlock : (sprite 0xFF0 [] []).i.toNat + (15 : Reg).val < 0x1000 ∧
    (15 : Reg) ≤ 15 ∧ 0xFEF < (sprite 0xFF0 [] []).i.toNat ∧
    (sprite 0xFFE [] []).i.toNat + (0 : Reg).val < 0xFFF := by decide

theorem witness_LoadRegsReadsTheBlock : (sprite 0xFF0 [] []).i.toNat + (15 : Reg).val < 0x1000 ∧
    (sprite 0xFFF [] []).i.toNat + (0 : Reg).val < 0x1000 ∧ (15 : Reg) ≤ 15 ∧ (0 : Reg) < 1 := by decide

/-- The second state is the first after the store, with I put back. -/
theorem witness_LoadAfterStoreGivesTheRegistersBack :
    let s := sprite 0xFF0 [] [(3, 7#8)]
    s.i.toNat + (15 : Reg).val < 0x1000 ∧ ∃ t, exec (.ldMemV 15) s = .next t ∧
      ({ t with i := s.i } : State).mem = t.mem ∧ ({ t with i := s.i } : State).i = s.i :=
  ⟨by decide, next_with _ (by decide)⟩

/-- Each of the four with its first bad byte at 0x1000, and with I beyond memory. -/
theorem witness_DataAccessBeyondMemoryIsRecorded :
    (sprite 0xFFF [] []).accessOutOfRange (.drw 0 1 2#4) ∧ (sprite 0xFFFF [] []).accessOutOfRange (.drw 0 1 1#4) ∧
    0x1000 ≤ (sprite 0xFFE [] []).i.toNat + 2 ∧ 0x1000 ≤ (sprite 0xFF1 [] []).i.toNat + (15 : Reg).val ∧
    0x1000 ≤ (sprite 0x1000 [] []).i.toNat + (0 : Reg).val :=
  ⟨(State.accessOutOfRange_iff _ _).mpr (by decide), (State.accessOutOfRange_iff _ _).mpr (by decide), by decide,
    by decide, by decide⟩

theorem witness_StoredBytesAreFetched :
    let s := sprite 0x300 [] [(0, 0x61#8), (1, 0x02#8)]
    s.i.toNat + (1 : Reg).val < 0x1000 ∧ (1 : Reg).val = (0 : Reg).val + 1 ∧ (1 : Reg) ≤ 1 ∧
      ∃ t, exec (.ldMemV 1) s = .next t ∧ ({ t with pc := 0x300#16 } : State).mem = t.mem ∧
        ({ t with pc := 0x300#16 } : State).pc.toNat = s.i.toNat + (0 : Reg).val :=
  ⟨by decide, by decide, by decide, next_with _ (by decide)⟩

theorem witness_NoInstructionWritesKeysOrRomStatus : ∃ t, exec (.jp 0x300#12) edge = .next t := ⟨_, rfl⟩

theorem witness_OnlyTheTablesRegistersAreWritten :
    (∃ t, exec (.addReg 1 2) edge = .next t) ∧ (3 : Reg) ∉ regsWritten (.addReg 1 2) ∧
    (∃ t, exec (.ldVMem 3) State.reset = .next t) ∧ (4 : Reg) ∉ regsWritten (.ldVMem 3) :=
  ⟨⟨_, rfl⟩, by decide, next_of (by decide), by decide⟩

theorem witness_OnlyTheTwoStoresWriteMemory : (∃ t, exec (.ldVMem 3) State.reset = .next t) ∧
    (∀ x, Instr.ldVMem 3 ≠ .ldBV x) ∧ ∀ x, Instr.ldVMem 3 ≠ .ldMemV x :=
  ⟨next_of (by decide), by decide, by decide⟩

/-- One instruction that meets all three clauses. -/
theorem witness_OnlyTheNamedInstructionsWriteDisplayAndTimers : (∃ t, exec (.sub 1 2) edge = .next t) ∧
    (∀ x y n, Instr.sub 1 2 ≠ .drw x y n) ∧ Instr.sub 1 2 ≠ .cls ∧ (∀ x, Instr.sub 1 2 ≠ .ldDtV x) ∧
    ∀ x, Instr.sub 1 2 ≠ .ldStV x :=
  ⟨⟨_, rfl⟩, by simp, by simp, by simp, by simp⟩

/-- One instruction that meets both clauses. -/
theorem witness_OnlyTheNamedInstructionsWriteStackAndIndex : (∃ t, exec (.sub 1 2) edge = .next t) ∧
    (∀ nnn, Instr.sub 1 2 ≠ .call nnn) ∧ Instr.sub 1 2 ≠ .ret ∧ (∀ nnn, Instr.sub 1 2 ≠ .ldI nnn) ∧
    (∀ x, Instr.sub 1 2 ≠ .addIV x) ∧ (∀ x, Instr.sub 1 2 ≠ .ldFV x) ∧ (∀ x, Instr.sub 1 2 ≠ .ldMemV x) ∧
    ∀ x, Instr.sub 1 2 ≠ .ldVMem x :=
  ⟨⟨_, rfl⟩, by simp, by simp, by simp, by simp, by simp, by simp, by simp⟩

theorem witness_OnlyTheControlInstructionsMoveThePc :
    (∃ t, exec (.seImm 0 0#8) State.reset = .next t) ∧ ∃ t, exec (.ldVK 0) State.reset = .next t :=
  ⟨next_of (by decide), next_of (by decide)⟩

/-- A state at the invariant's bounds, whose step faults at the fetch, and one in range, whose step executes. -/
theorem witness_StepKeepsTheInvariant :
    (edge.Inv ∧ ∃ t, step edge = .next t) ∧
    ({ edge with pc := 0xFFE#16 }.Inv ∧ ∃ t, step { edge with pc := 0xFFE#16 } = .next t) :=
  ⟨⟨edge_inv, _, step_of_gt rfl (by decide)⟩, ⟨⟨by decide, edge_inv.stack_le, edge_inv.mem_wf⟩, _,
    step_of_fetches (i := .sys 0#12) ⟨rfl, by decide, by decide⟩⟩⟩

theorem witness_CommandsKeepTheInvariant : edge.Inv := edge_inv

/-- A host write to the keypad, a failed load, and an image that fits. -/
theorem witness_OnlyResetAndLoadRomClearAFault :
    faulted.fault = some record ∧ Command.writeKeys (pad [1]) ≠ .reset ∧
    (∀ image path, Command.writeKeys (pad [1]) = .loadRom (.bytes image) path → 3584 < image.length) ∧
    (∀ image path, Command.loadRom (.bytes (List.replicate 3585 0#8)) "b" = .loadRom (.bytes image) path →
      3584 < image.length) ∧
    (List.replicate 3584 0#8).length ≤ 3584 := by
  refine ⟨rfl, by simp, by simp, fun image path h => ?_, image_lengths.2.le⟩
  simp only [Command.loadRom.injEq, RomSource.bytes.injEq] at h
  rw [← h.1, image_lengths.1]
  decide

theorem witness_TicksCountDownToZero : State.reset.fault = none ∧ faulted.fault ≠ none := by decide

/-- A run with a step between two steps, one that a fault ends early, and one that a draw ends early. -/
theorem witness_RunStopsAtADrawOrAFault :
    (0 < 1 ∧ 1 < (run 3 State.reset).2) ∧
    ((run 3 faulted).2 < 3 ∧ (run 3 faulted).1.fault ≠ none) ∧
    ((run 3 (placed 0xD000#16)).2 < 3 ∧ (run 3 (placed 0xD000#16)).1.dw = true) := by decide

theorem witness_FrameSamplesKeysAndTicksOnce :
    (run 2 { State.reset with keysPrev := State.reset.keys, keys := pad [3] }).1.fault = none ∧
    (run 2 { faulted with keysPrev := faulted.keys, keys := pad [3] }).1.fault ≠ none := by decide

/-- 3585 bytes are one too many and 3584 fit; byte 3583 of them lies at 0xFFF; 0x1FF and, for a short image, 0x201 are
outside. -/
theorem witness_LoadRomInstallsOrChangesNothing :
    3584 < (List.replicate 3585 0#8).length ∧ (List.replicate 3584 0#8).length ≤ 3584 ∧
    3583 < (List.replicate 3584 0#8).length ∧ 0x1FF < 0x200 ∧ 0x200 + [0x60#8].length ≤ 0x201 := by
  rw [image_lengths.1, image_lengths.2]
  decide

end Sys2Proof.Tests
end

section
/-! Proofs about the system and flow instructions (41_system_and_flow.md): the next state of each one that always
completes, and the obligations that follow from it. -/

namespace Sys2Proof.Machine

/-- CLS completes from the cleared plane (R151). -/
theorem exec_cls (s : State) : exec .cls s = .next (s.clearScreen.setDw false) := rfl

/-- SYS completes from the state itself, whatever nnn is (R153). -/
theorem exec_sys (nnn : Addr12) (s : State) : exec (.sys nnn) s = .next (s.setDw false) := rfl

/-- JP completes from the state with pc at nnn (R154). -/
theorem exec_jp (nnn : Addr12) (s : State) :
    exec (.jp nnn) s = .next ((s.setPc (addressOf nnn)).setDw false) := rfl

/-- An instruction that completes from `s.setPc a` writes pc and nothing else. -/
theorem State.writesPc_setPc (s : State) (a : Word) : WritesPc s ((s.setPc a).setDw false) a.toNat := ⟨rfl, rfl⟩

/-- Settles O13: DW aside, CLS writes only the plane, and `State.clearScreen_pixel` reads it back; SYS writes nothing. -/
theorem clsClearsTheDisplayAndSysDoesNothing : Obligations.ClsClearsTheDisplayAndSysDoesNothing := by
  unfold Obligations.ClsClearsTheDisplayAndSysDoesNothing
  constructor
  · intro s
    have blank : ∀ c r, (s.clearScreen.setDw false).pixel c r = false := fun c r => by
      rw [State.setDw_pixel, State.clearScreen_pixel]
    exact ⟨_, exec_cls s, blank, rfl⟩
  · intro s nnn
    exact ⟨_, exec_sys nnn s, rfl⟩

/-- Settles O14: JP's next state is a pc write, to the address whose value is nnn. -/
theorem jpSetsPc : Obligations.JpSetsPc := by
  unfold Obligations.JpSetsPc
  intro s nnn
  have target := s.writesPc_setPc (addressOf nnn)
  rw [addressOf_toNat] at target
  exact ⟨_, exec_jp nnn s, target⟩

end Sys2Proof.Machine
end

section
/-! Proofs about the load instructions (42_load_alu.md): the next state of LD Vx, kk and of LD I, nnn, what a lone
register write leaves behind, and the obligations that follow from them. -/

namespace Sys2Proof.Machine

/-- LD Vx, kk completes from the state with kk in Vx (R200). -/
theorem exec_ldImm (x : Reg) (kk : Byte) (s : State) :
    exec (.ldImm x kk) s = .next ((s.writeV x kk).setDw false) := rfl

/-- LD I, nnn completes from the state with I at nnn (R213). -/
theorem exec_ldI (nnn : Addr12) (s : State) :
    exec (.ldI nnn) s = .next ((s.setI (addressOf nnn)).setDw false) := rfl

/-- An instruction that completes from `s.writeV x b` writes Vx and nothing else. -/
theorem State.writesRegister_writeV (s : State) (x : Reg) (b : Byte) :
    WritesRegister s ((s.writeV x b).setDw false) x b := by
  have reads : ∀ r, ((s.writeV x b).setDw false).readV r = if r = x then b else s.readV r := fun r => by
    rw [State.setDw_readV, State.writeV_readV]
  refine ⟨rfl, ?_, fun r other => ?_⟩
  · rw [reads, if_pos rfl]
  · rw [reads, if_neg other]

/-- Settles O21: LD Vx, kk completes from a lone register write, of kk to Vx. -/
theorem ldImmWritesOneRegister : Obligations.LdImmWritesOneRegister := by
  unfold Obligations.LdImmWritesOneRegister
  intro s x kk
  exact ⟨_, exec_ldImm x kk s, s.writesRegister_writeV x kk⟩

/-- Settles O29: LD I, nnn completes from a lone write to I, of the address whose value is nnn. -/
theorem ldISetsTheIndex : Obligations.LdISetsTheIndex := by
  unfold Obligations.LdISetsTheIndex
  intro s nnn
  have index : ((s.setI (addressOf nnn)).setDw false).i.toNat = nnn.toNat := by
    rw [State.setDw_i, State.setI_i, addressOf_toNat]
  exact ⟨_, exec_ldI nnn s, index, rfl⟩

end Sys2Proof.Machine
end

section
/-! Proofs about the sprite draw (43_display.md): how many rows a height draws, the next state of a draw of height 0,
and the obligation that follows from them. -/

namespace Sys2Proof.Machine

/-- A sprite of height 0 has no row to draw (R256). -/
theorem State.drwRows_zero (s : State) (y : Reg) : s.drwRows y 0#4 = 0 := Nat.zero_min _

/-- The start row lies on the plane, so the bottom edge never clips the first row of a sprite (R251, R253). -/
theorem State.drwRows_pos (s : State) (y : Reg) {n : Nibble} (hn : n ≠ 0#4) : 0 < s.drwRows y n := by
  have height : 0 < n.toNat := by bv_omega
  have onPlane : (s.readV y).toNat % 32 < 32 := Nat.mod_lt _ (by decide)
  exact lt_min height (Nat.sub_pos_of_lt onPlane)

/-- A draw of no rows accesses no byte, so no value of I is out of range for it (R255, R256). -/
theorem State.not_accessOutOfRange_drw_zero (s : State) (x y : Reg) : ¬ s.accessOutOfRange (.drw x y 0#4) := by
  rintro ⟨k, accessed, -⟩
  exact Nat.not_lt_zero k (s.drwRows_zero y ▸ accessed)

/-- DRW of height 0 completes from the state with VF reset (R256). -/
theorem exec_drw_zero (x y : Reg) (s : State) :
    exec (.drw x y 0#4) s = .next ((s.writeVF 0#8).setDw true) := by
  have draws := execDrw_of_ok (s.not_accessOutOfRange_drw_zero x y)
  rw [s.drwRows_zero, drawRows] at draws
  exact draws

/-- Settles O32: DW aside, a draw of height 0 is a lone write to VF; any other height draws at least its first row. -/
theorem drwOfHeightZeroDrawsNothing : Obligations.DrwOfHeightZeroDrawsNothing := by
  unfold Obligations.DrwOfHeightZeroDrawsNothing
  constructor
  · intro s x y
    have reads : ∀ r, ((s.writeVF 0#8).setDw true).readV r = if r = Reg.f then 0#8 else s.readV r := fun r => by
      rw [State.setDw_readV, State.writeVF_readV]
    refine ⟨_, exec_drw_zero x y s, ?_, fun r other => ?_, rfl⟩
    · rw [reads, if_pos rfl]
    · rw [reads, if_neg other]
  · intro s y n hn
    exact s.drwRows_pos y hn

end Sys2Proof.Machine
end

section
/-! Proofs about the key skips and the glyph address (44_keys_timers_misc.md): the next state of SKP, SKNP and Fx29, what
a skip leaves behind, and the obligations that follow from them. -/

namespace Sys2Proof.Machine

/-- SKP completes from a skip on the key that Vx numbers (R281). -/
theorem exec_skp (x : Reg) (s : State) :
    exec (.skp x) s = .next ((s.skipIf (s.key (keyOf (s.readV x)))).setDw false) := rfl

/-- SKNP completes from a skip on the negation of that key (R282). -/
theorem exec_sknp (x : Reg) (s : State) :
    exec (.sknp x) s = .next ((s.skipIf (!s.key (keyOf (s.readV x)))).setDw false) := rfl

/-- Fx29 completes from the state with I at the glyph of the digit that Vx gives (R290). -/
theorem exec_ldFV (x : Reg) (s : State) :
    exec (.ldFV x) s = .next ((s.setI (glyphAddress (fontDigit (s.readV x)))).setDw false) := rfl

/-- The key tested is entry Vx mod 16 of the current keypad (R93, R281). -/
theorem State.key_keyOf (s : State) (b : Byte) :
    s.key (keyOf b) = s.keys[b.toNat % 16]'(Nat.mod_lt _ (by decide)) := by
  simp only [State.key, keyOf_val]

/-- An instruction that completes from a skip writes pc and nothing else, whether or not it skips. -/
theorem State.skipIf_setDw_frame (s : State) (c : Bool) :
    (s.skipIf c).setDw false = { s with pc := ((s.skipIf c).setDw false).pc, dw := false } := by
  cases c <;> rfl

/-- I after Fx29 is exact: 0x50 + 5 * d, where d is the digit under the machine's setting of P_FONT_DIGIT (R290). -/
theorem glyphAddress_fontDigit_toNat (b : Byte) :
    (glyphAddress (fontDigit b)).toNat = 0x50 + 5 * fontDigitOf Config.fontDigit b := by
  rw [fontDigit_eq, glyphAddress_toNat _ (fontDigitOf_le _ b)]

/-- Settles O34: both skips test `State.key_keyOf` in the current keypad, SKNP with its branches exchanged, and a skip
writes pc alone. -/
theorem keySkipsTestTheCurrentKey : Obligations.KeySkipsTestTheCurrentKey := by
  unfold Obligations.KeySkipsTestTheCurrentKey
  constructor
  · intro s x
    refine ⟨_, exec_skp x s, s.skipIf_setDw_frame _, ?_⟩
    rw [State.setDw_pc, State.skipIf_pc, State.key_keyOf]
  · intro s x
    refine ⟨_, exec_sknp x s, s.skipIf_setDw_frame _, ?_⟩
    rw [State.setDw_pc, State.skipIf_pc, State.key_keyOf]
    simp only [Bool.not_eq_true', ← Bool.not_eq_true, ite_not]

/-- Settles O39: I holds the glyph address of the digit under the free setting of P_FONT_DIGIT, which the obligation's
own case distinction unfolds; up to 0xF the digit is Vx under either setting. -/
theorem fontAddressUnderEachSetting : Obligations.FontAddressUnderEachSetting := by
  unfold Obligations.FontAddressUnderEachSetting
  intro s x
  have index : ((s.setI (glyphAddress (fontDigit (s.readV x)))).setDw false).i.toNat =
      0x50 + 5 * fontDigitOf Config.fontDigit (s.readV x) := by
    rw [State.setDw_i, State.setI_i, glyphAddress_fontDigit_toNat]
  refine ⟨_, exec_ldFV x s, rfl, index, fun upToF => ?_⟩
  rw [index, fontDigitOf_of_le _ _ upToF]

end Sys2Proof.Machine
end

section
/-! Proofs about the decoder and the encoder (30_encoding.md): which opcodes each family decodes, and that decoding and
encoding undo each other. -/

namespace Sys2Proof

/-! ### Encoding, then decoding (R96) -/

/-- SYS takes every word of family 0x0 but those of CLS and RET (R95, R98). -/
theorem decodeWord_wordN_zero {nnn : Addr12} (h : (Instr.sys nnn).wf = true) :
    decodeWord (wordN 0x0#4 nnn) = .instr (.sys nnn) := by
  have wf : nnn ≠ 0x0E0#12 ∧ nnn ≠ 0x0EE#12 := by simpa [Instr.wf] using h
  have notCls : wordN 0x0#4 nnn ≠ 0x00E0#16 := fun e => wf.1 (by rw [← fieldNNN_wordN 0x0#4 nnn, e]; decide)
  have notRet : wordN 0x0#4 nnn ≠ 0x00EE#16 := fun e => wf.2 (by rw [← fieldNNN_wordN 0x0#4 nnn, e]; decide)
  simp [decodeWord, decodeFamily0, notCls, notRet]

/-- Decoding undoes encoding: the decoder tests and reads exactly the fields that the form of the opcode fixes. -/
theorem decodeWord_encode {i : Instr} (h : i.wf = true) : decodeWord (encode i) = .instr i := by
  cases i with
  | sys nnn => exact decodeWord_wordN_zero h
  | cls | ret => decide
  | jp | call | jpV0 | ldI | seImm | sneImm | ldImm | addImm | rnd | drw => simp [encode, decodeWord]
  | seReg => simp [encode, decodeWord, decodeFamily5]
  | sneReg => simp [encode, decodeWord, decodeFamily9]
  | ldReg | orReg | andReg | xorReg | addReg | sub | shr | subn | shl => simp [encode, decodeWord, decodeFamily8]
  | skp | sknp => simp [encode, decodeWord, decodeFamilyE]
  | ldVDt | ldVK | ldDtV | ldStV | addIV | ldFV | ldBV | ldMemV | ldVMem => simp [encode, decodeWord, decodeFamilyF]

/-! ### Decoding, then encoding (R99, R101) -/

/-- The opcode is the instruction's one encoding, and the instruction is well-formed. -/
def Encodes (op : Word) (i : Instr) : Prop := encode i = op ∧ i.wf = true

variable {op : Word} {i : Instr}

theorem encodes_of_decodeFamily0 (hf : family op = 0x0#4) (h : decodeFamily0 op = .instr i) : Encodes op i := by
  unfold decodeFamily0 at h
  split_ifs at h with notCls notRet <;> cases h
  · exact ⟨notCls.symm, rfl⟩
  · exact ⟨notRet.symm, rfl⟩
  · have word : wordN 0x0#4 (fieldNNN op) = op := wordN_of_family hf
    have ne : ∀ nnn, op ≠ wordN 0x0#4 nnn → fieldNNN op ≠ nnn := fun nnn hne e => hne (by rw [← e, word])
    refine ⟨word, ?_⟩
    simp only [Instr.wf, Bool.and_eq_true, bne_iff_ne]
    exact ⟨ne _ notCls, ne _ notRet⟩

theorem encodes_of_decodeFamily5 (hf : family op = 0x5#4) (h : decodeFamily5 op = .instr i) : Encodes op i := by
  unfold decodeFamily5 at h
  split_ifs at h with hn
  cases h
  exact ⟨wordXY_of_family hf hn, rfl⟩

/-- Each row of the table of family 0x8 is the form fxyn with its own n. -/
theorem encodes_of_decodeFamily8 (hf : family op = 0x8#4) (h : decodeFamily8 op = .instr i) : Encodes op i := by
  unfold decodeFamily8 at h
  split_ifs at h with hn hn hn hn hn hn hn hn hn <;> cases h <;> exact ⟨wordXY_of_family hf hn, rfl⟩

theorem encodes_of_decodeFamily9 (hf : family op = 0x9#4) (h : decodeFamily9 op = .instr i) : Encodes op i := by
  unfold decodeFamily9 at h
  split_ifs at h with hn
  cases h
  exact ⟨wordXY_of_family hf hn, rfl⟩

theorem encodes_of_decodeFamilyE (hf : family op = 0xE#4) (h : decodeFamilyE op = .instr i) : Encodes op i := by
  unfold decodeFamilyE at h
  split_ifs at h with hk hk <;> cases h <;> exact ⟨wordXK_of_family hf hk, rfl⟩

/-- Each row of the table of family 0xF is the form fxkk with its own kk. -/
theorem encodes_of_decodeFamilyF (hf : family op = 0xF#4) (h : decodeFamilyF op = .instr i) : Encodes op i := by
  unfold decodeFamilyF at h
  split_ifs at h with hk hk hk hk hk hk hk hk hk <;> cases h <;> exact ⟨wordXK_of_family hf hk, rfl⟩

/-- What the decoder makes of an opcode, by its family: six families have a table, and each other family is one
instruction (R124). -/
inductive Dispatched (op : Word) : Decoded → Prop where
  | family0 (hf : family op = 0x0#4) : Dispatched op (decodeFamily0 op)
  | jp (hf : family op = 0x1#4) : Dispatched op (.instr (.jp (fieldNNN op)))
  | call (hf : family op = 0x2#4) : Dispatched op (.instr (.call (fieldNNN op)))
  | seImm (hf : family op = 0x3#4) : Dispatched op (.instr (.seImm (fieldX op) (fieldKK op)))
  | sneImm (hf : family op = 0x4#4) : Dispatched op (.instr (.sneImm (fieldX op) (fieldKK op)))
  | family5 (hf : family op = 0x5#4) : Dispatched op (decodeFamily5 op)
  | ldImm (hf : family op = 0x6#4) : Dispatched op (.instr (.ldImm (fieldX op) (fieldKK op)))
  | addImm (hf : family op = 0x7#4) : Dispatched op (.instr (.addImm (fieldX op) (fieldKK op)))
  | family8 (hf : family op = 0x8#4) : Dispatched op (decodeFamily8 op)
  | family9 (hf : family op = 0x9#4) : Dispatched op (decodeFamily9 op)
  | ldI (hf : family op = 0xA#4) : Dispatched op (.instr (.ldI (fieldNNN op)))
  | jpV0 (hf : family op = 0xB#4) : Dispatched op (.instr (.jpV0 (fieldNNN op)))
  | rnd (hf : family op = 0xC#4) : Dispatched op (.instr (.rnd (fieldX op) (fieldKK op)))
  | drw (hf : family op = 0xD#4) : Dispatched op (.instr (.drw (fieldX op) (fieldY op) (fieldN op)))
  | familyE (hf : family op = 0xE#4) : Dispatched op (decodeFamilyE op)
  | familyF (hf : family op = 0xF#4) : Dispatched op (decodeFamilyF op)

theorem dispatched_decodeWord (op : Word) : Dispatched op (decodeWord op) := by
  rcases nibble_cases (family op) with hf | hf | hf | hf | hf | hf | hf | hf | hf | hf | hf | hf | hf | hf | hf | hf <;>
    simp only [decodeWord, hf, BitVec.reduceEq, if_true, if_false]
  · exact .family0 hf
  · exact .jp hf
  · exact .call hf
  · exact .seImm hf
  · exact .sneImm hf
  · exact .family5 hf
  · exact .ldImm hf
  · exact .addImm hf
  · exact .family8 hf
  · exact .family9 hf
  · exact .ldI hf
  · exact .jpV0 hf
  · exact .rnd hf
  · exact .drw hf
  · exact .familyE hf
  · exact .familyF hf

/-- Encoding undoes decoding: a family without a table decodes its form's own fields, and the tables are settled row by
row above. -/
theorem Dispatched.encodes {d : Decoded} (hd : Dispatched op d) (h : d = .instr i) : Encodes op i := by
  cases hd with
  | family0 hf => exact encodes_of_decodeFamily0 hf h
  | family5 hf => exact encodes_of_decodeFamily5 hf h
  | family8 hf => exact encodes_of_decodeFamily8 hf h
  | family9 hf => exact encodes_of_decodeFamily9 hf h
  | familyE hf => exact encodes_of_decodeFamilyE hf h
  | familyF hf => exact encodes_of_decodeFamilyF hf h
  | jp hf | call hf | ldI hf | jpV0 hf => cases h; exact ⟨wordN_of_family hf, rfl⟩
  | seImm hf | sneImm hf | ldImm hf | addImm hf | rnd hf => cases h; exact ⟨wordXK_of_family hf rfl, rfl⟩
  | drw hf => cases h; exact ⟨wordXY_of_family hf rfl, rfl⟩

theorem encodes_of_decodeWord (h : decodeWord op = .instr i) : Encodes op i :=
  (dispatched_decodeWord op).encodes h

/-! ### The opcodes that decode to nothing (R97) -/

/-- The reading of an opcode is a rejection. -/
def Decoded.Rejects (d : Decoded) : Prop := ∃ why, d = .rejected why

@[simp] theorem Decoded.not_rejects_instr (i : Instr) : ¬ (Decoded.instr i).Rejects := by
  rintro ⟨why, h⟩
  cases h

@[simp] theorem Decoded.rejects_rejected (why : DecodeError) : (Decoded.rejected why).Rejects := ⟨why, rfl⟩

/-- A row of a table that holds an instruction rejects nothing, so the rows after it decide. -/
@[simp] theorem Decoded.rejects_row (c : Prop) [Decidable c] (i : Instr) (rest : Decoded) :
    (if c then .instr i else rest).Rejects ↔ ¬ c ∧ rest.Rejects := by
  by_cases h : c <;> simp [h]

theorem fieldN_eq_iff (op : Word) (n : Nibble) : fieldN op = n ↔ op.toNat % 16 = n.toNat := by
  rw [← fieldN_toNat, BitVec.toNat_inj]

theorem fieldKK_eq_iff (op : Word) (kk : Byte) : fieldKK op = kk ↔ op.toNat % 256 = kk.toNat := by
  rw [← fieldKK_toNat, BitVec.toNat_inj]

/-- R97's table: the family, and the sub-codes that have no row. -/
def Unimplemented (op : Word) : Prop :=
  (op.toNat / 4096 = 5 ∧ op.toNat % 16 ≠ 0) ∨ (op.toNat / 4096 = 9 ∧ op.toNat % 16 ≠ 0) ∨
  (op.toNat / 4096 = 8 ∧ op.toNat % 16 ∈ [0x8, 0x9, 0xA, 0xB, 0xC, 0xD, 0xF]) ∨
  (op.toNat / 4096 = 14 ∧ op.toNat % 256 ∉ [0x9E, 0xA1]) ∨
  (op.toNat / 4096 = 15 ∧ op.toNat % 256 ∉ [0x07, 0x0A, 0x15, 0x18, 0x1E, 0x29, 0x33, 0x55, 0x65])

theorem Dispatched.rejects_iff {d : Decoded} (hd : Dispatched op d) : d.Rejects ↔ Unimplemented op := by
  unfold Unimplemented
  rw [← family_toNat]
  cases hd with
  | family0 hf => simp [decodeFamily0, hf]
  | family5 hf => simp [decodeFamily5, hf, fieldN_eq_iff]
  | family8 hf => simp [decodeFamily8, hf, fieldN_eq_iff]; omega
  | family9 hf => simp [decodeFamily9, hf, fieldN_eq_iff]
  | familyE hf => simp [decodeFamilyE, hf, fieldKK_eq_iff]
  | familyF hf => simp [decodeFamilyF, hf, fieldKK_eq_iff]
  | jp hf | call hf | ldI hf | jpV0 hf | seImm hf | sneImm hf | ldImm hf | addImm hf | rnd hf | drw hf => simp [hf]

end Sys2Proof

namespace Sys2Proof.Machine

/-- Settles O1: `decodeWord_encode`, which goes through the instructions by the family that decodes them. -/
theorem decodeOfEncodeIsTheInstruction : Obligations.DecodeOfEncodeIsTheInstruction := by
  unfold Obligations.DecodeOfEncodeIsTheInstruction
  intro i wf
  exact decodeWord_encode wf

/-- Settles O2: `encodes_of_decodeWord`, family by family: the opcode is its form over its own fields. -/
theorem encodeOfDecodeIsTheOpcode : Obligations.EncodeOfDecodeIsTheOpcode := by
  unfold Obligations.EncodeOfDecodeIsTheOpcode
  intro op i decodes
  exact encodes_of_decodeWord decodes

/-- Settles O3: `Dispatched.rejects_iff`: the families without a table reject nothing, and a table rejects what none of
its rows takes. -/
theorem unimplementedOpcodesAreExactlyTheTable : Obligations.UnimplementedOpcodesAreExactlyTheTable := by
  unfold Obligations.UnimplementedOpcodesAreExactlyTheTable
  intro op
  exact (dispatched_decodeWord op).rejects_iff

/-- Settles O4: each of the twelve opcodes is a number, so the decoder evaluates it. -/
theorem sampleOpcodesDecodeAsThePatternsSay : Obligations.SampleOpcodesDecodeAsThePatternsSay := by
  unfold Obligations.SampleOpcodesDecodeAsThePatternsSay
  decide

end Sys2Proof.Machine
end

section
/-! Proofs about what an instruction can do (40_cycle.md R124-R126, 60_exceptions.md R331, R335): it raises exactly the
fault that is due, or it completes with an effect that stays within the spec's tables of writers. -/

namespace Sys2Proof.Machine

variable {s u : State} {i : Instr} {c : FaultCause} {a : Option Nat}

/-! ### The fault that is due (R331, R338) -/

/-- The bounds fault is due exactly when an access is out of range, at the lowest address out of range (R334). -/
theorem State.due_bounds_iff :
    s.Due i .dataAddressOutOfRange a ↔ s.accessOutOfRange i ∧ a = some (max s.i.toNat 0x1000) := by
  constructor
  · intro h
    cases h with
    | bounds _ a k accessed address bad lowest =>
    refine ⟨⟨k, accessed, address ▸ bad⟩, congrArg some ?_⟩
    have := lowest (k - 1)
    omega
  · rintro ⟨⟨k, accessed, bad⟩, rfl⟩
    exact .bounds i _ (0x1000 - s.i.toNat) (by omega) (by omega) (by omega) (by omega)

/-- The four memory instructions check their bytes, and no other instruction accesses any (R336). -/
theorem exec_of_accessOutOfRange (h : s.accessOutOfRange i) :
    exec i s = raiseDataAddress i (max s.i.toNat 0x1000) s := by
  cases i with
  | drw => exact execDrw_of_bad h
  | ldBV => exact execLdBV_of_bad h
  | ldMemV => exact execLdMemV_of_bad h
  | ldVMem => exact execLdVMem_of_bad h
  | _ =>
    obtain ⟨k, accessed, -⟩ := h
    exact absurd accessed (Nat.not_lt_zero k)

/-- An instruction that is due a fault raises it, with its own opcode (R335). -/
theorem exec_of_due (h : s.Due i c a) : exec i s = raise c (some (encode i)) a s := by
  cases h with
  | overflow nnn full => exact execCall_of_full nnn s (Fin.ext full)
  | underflow empty => exact execRet_of_zero s (Fin.ext empty)
  | bounds _ a k accessed address bad lowest =>
    obtain ⟨out, least⟩ := State.due_bounds_iff.mp (.bounds i a k accessed address bad lowest)
    rw [exec_of_accessOutOfRange out, least, raiseDataAddress]

/-! ### The effect of an instruction that completes -/

/-- The six skips. -/
def IsSkip (i : Instr) : Prop :=
  (∃ x kk, i = .seImm x kk) ∨ (∃ x kk, i = .sneImm x kk) ∨ (∃ x y, i = .seReg x y) ∨ (∃ x y, i = .sneReg x y) ∨
    (∃ x, i = .skp x) ∨ ∃ x, i = .sknp x

/-- The instruction is the sprite draw, the one that leaves DW set (R126). -/
def isDraw : Instr → Bool
  | .drw _ _ _ => true
  | _ => false

/-- `v` is the registers of `s` but for those that the operand table lets the instruction write (10_state.md R22). -/
def State.KeepsOthers (s : State) (i : Instr) (v : Vector Byte 16) : Prop :=
  ∀ r : Reg, r ∉ regsWritten i → v[r.val] = s.readV r

/-- A memory that an instruction may leave: FONT is as before, and the form stays canonical. -/
structure Memory.Follows (m m' : Memory) : Prop where
  font : m'.font = m.font
  wf : m.wf = true → m'.wf = true

/-- What an instruction that completes can leave, DW aside: one constructor per set of pieces of state it may write. Any
instruction may write the registers of its row of the operand table and nothing else. -/
inductive State.Effect (s : State) : Instr → State → Prop where
  | registers {i : Instr} (v : Vector Byte 16) (draws : Nat) (others : s.KeepsOthers i v) :
      s.Effect i { s with v := v, rngDraws := draws }
  | cls (plane : Screen) : s.Effect .cls { s with screen := plane }
  | drw {x y : Reg} {n : Nibble} (v : Vector Byte 16) (plane : Screen) (others : s.KeepsOthers (.drw x y n) v) :
      s.Effect (.drw x y n) { s with v := v, screen := plane }
  | jp (nnn : Addr12) : s.Effect (.jp nnn) (s.setPc (addressOf nnn))
  | jpV0 (nnn : Addr12) : s.Effect (.jpV0 nnn) (s.setPc (addressOf nnn + widen (s.readV 0)))
  | call (nnn : Addr12) (h : s.sp.val < 16) : s.Effect (.call nnn) { s with
      pc := addressOf nnn, stack := s.stack.set s.sp.val s.pc, sp := ⟨s.sp.val + 1, Nat.succ_lt_succ h⟩ }
  | ret (h : 0 < s.sp.val) : s.Effect .ret { s with
      pc := s.stack[s.sp.val - 1]'(by omega), sp := ⟨s.sp.val - 1, by omega⟩ }
  | skip {i : Instr} (hi : IsSkip i) : s.Effect i (s.setPc (s.pc + 2#16))
  | ldVK (x : Reg) : s.Effect (.ldVK x) (s.setPc (s.pc - 2#16))
  | ldDtV (x : Reg) (b : Byte) : s.Effect (.ldDtV x) (s.setDt b)
  | ldStV (x : Reg) (b : Byte) : s.Effect (.ldStV x) (s.setSt b)
  | ldI (nnn : Addr12) (w : Word) : s.Effect (.ldI nnn) (s.setI w)
  | addIV (x : Reg) (w : Word) : s.Effect (.addIV x) (s.setI w)
  | ldFV (x : Reg) (w : Word) : s.Effect (.ldFV x) (s.setI w)
  | ldBV (x : Reg) {m : Memory} (hm : s.mem.Follows m) : s.Effect (.ldBV x) { s with mem := m }
  | ldMemV (x : Reg) (w : Word) {m : Memory} (hm : s.mem.Follows m) : s.Effect (.ldMemV x) { s with mem := m, i := w }
  | ldVMem {x : Reg} (w : Word) (v : Vector Byte 16) (others : s.KeepsOthers (.ldVMem x) v) :
      s.Effect (.ldVMem x) { s with v := v, i := w }

namespace State.Effect

theorem refl : s.Effect i s := .registers s.v s.rngDraws fun _ _ => rfl

theorem skipIf (hi : IsSkip i) (b : Bool) : s.Effect i (s.skipIf b) := by
  cases b
  · exact .refl
  · exact .skip hi

theorem writeV {x : Reg} (hx : x ∈ regsWritten i) (b : Byte) : s.Effect i (s.writeV x b) :=
  .registers _ s.rngDraws fun r hr =>
    (s.writeV_readV x b r).trans (if_neg fun (e : r = x) => hr (e ▸ hx))

theorem writeResult {x : Reg} (hi : regsWritten i = [x, Reg.f]) (b f : Byte) : s.Effect i (s.writeResult x b f) :=
  .registers _ s.rngDraws fun r hr => by
    rw [hi, List.mem_pair, not_or] at hr
    exact (s.writeResult_readV x b f r).trans (by rw [if_neg hr.2, if_neg hr.1])

theorem rnd (x : Reg) (kk : Byte) : s.Effect (.rnd x kk) (s.tookDraw.writeV x (s.nextDraw &&& kk)) :=
  .registers _ (s.rngDraws + 1) fun r hr =>
    (s.writeV_readV x _ r).trans (if_neg (by simpa [regsWritten] using hr))

end State.Effect

/-- A draw that first resets VF leaves every other register alone. -/
theorem State.drawRows_keepsOthers (s : State) (c0 r0 rows : Nat) {r : Reg} (hr : r ≠ Reg.f) :
    (drawRows c0 r0 rows (s.writeVF 0#8)).readV r = s.readV r := by
  rw [drawRows_readV, if_neg (fun h => hr h.1), State.writeVF_readV, if_neg hr]

/-- The shifts first copy Vy to Vx, a register that they then write again. -/
theorem State.writeResult_writeV (s : State) (x : Reg) (b b' f : Byte) :
    (s.writeV x b).writeResult x b' f = s.writeResult x b' f := by
  simp only [State.writeResult, State.writeV, Vector.set_set]

/-- Memory follows after a write of consecutive bytes. -/
theorem Memory.follows_writeBytes (m : Memory) (base : Nat) (bs : List Byte) : m.Follows (m.writeBytes base bs) :=
  ⟨m.writeBytes_font base bs, m.wf_writeBytes base bs⟩

theorem State.follows_storeRegs (s : State) (base : Nat) (rs : List Reg) :
    s.mem.Follows (storeRegs base rs s).mem :=
  ⟨storeRegs_font base rs s, storeRegs_mem_wf base rs s⟩

/-- An instruction that is due no fault completes, DW last, within its row of the tables of writers. -/
theorem exec_of_not_due (h : ¬ ∃ c a, s.Due i c a) : ∃ u, exec i s = complete (isDraw i) u ∧ s.Effect i u := by
  have inRange : ¬ s.accessOutOfRange i := fun out => h ⟨_, _, State.due_bounds_iff.mpr ⟨out, rfl⟩⟩
  cases i with
  | cls => exact ⟨_, rfl, .cls _⟩
  | ret =>
    have pos : 0 < s.sp.val := Nat.pos_of_ne_zero fun empty => h ⟨_, _, .underflow empty⟩
    exact ⟨_, execRet_of_pos s pos, .ret pos⟩
  | sys nnn => exact ⟨_, rfl, .refl⟩
  | jp nnn => exact ⟨_, rfl, .jp nnn⟩
  | call nnn =>
    have below : s.sp.val < 16 := Nat.lt_of_le_of_ne (by omega) fun full => h ⟨_, _, .overflow nnn full⟩
    exact ⟨_, execCall_of_lt nnn s below, .call nnn below⟩
  | seImm | sneImm | seReg | sneReg | skp | sknp => exact ⟨_, rfl, .skipIf (by simp [IsSkip]) _⟩
  | jpV0 nnn => exact ⟨_, rfl, .jpV0 nnn⟩
  | ldImm | addImm | ldReg | ldVDt => exact ⟨_, rfl, .writeV (by simp [regsWritten]) _⟩
  | orReg | andReg | xorReg | addReg | sub => exact ⟨_, rfl, .writeResult rfl _ _⟩
  | shr | shl => exact ⟨_, rfl, s.writeResult_writeV _ _ _ _ ▸ .writeResult rfl _ _⟩
  | subn x y => exact ⟨_, rfl, .writeResult (x := x) rfl _ _⟩
  | ldI nnn => exact ⟨_, rfl, .ldI nnn _⟩
  | rnd => exact ⟨_, rfl, .rnd _ _⟩
  | drw x y n =>
    refine ⟨_, execDrw_of_ok inRange, ?_⟩
    rw [drawRows_eq]
    exact .drw _ _ fun r hr => s.drawRows_keepsOthers _ _ _ (by simpa [regsWritten] using hr)
  | ldVK x =>
    cases released : s.firstReleased with
    | some k => exact ⟨_, execLdVK_of_some x released, .writeV (by simp [regsWritten]) _⟩
    | none => exact ⟨_, execLdVK_of_none x released, .ldVK x⟩
  | ldDtV x => exact ⟨_, rfl, .ldDtV x _⟩
  | ldStV x => exact ⟨_, rfl, .ldStV x _⟩
  | addIV x => exact ⟨_, rfl, .addIV x _⟩
  | ldFV x => exact ⟨_, rfl, .ldFV x _⟩
  | ldBV x => exact ⟨_, execLdBV_of_ok inRange, .ldBV x (s.mem.follows_writeBytes _ _)⟩
  | ldMemV x =>
    refine ⟨_, execLdMemV_of_ok inRange, ?_⟩
    rw [storeRegs_eq]
    exact .ldMemV x _ (s.follows_storeRegs _ _)
  | ldVMem x =>
    refine ⟨_, execLdVMem_of_ok inRange, ?_⟩
    rw [loadRegs_eq]
    exact .ldVMem _ _ fun r hr => (loadRegs_readV _ _ s r).trans (if_neg (by simpa [regsWritten, mem_regsUpTo] using hr))

end Sys2Proof.Machine
end

section
/-! Proofs about the step (40_cycle.md R120-R127, 60_exceptions.md R331-R338): what it leaves, when it faults, and that a
fault is precise. -/

namespace Sys2Proof.Machine

variable {s t u : State} {i : Instr} {c : FaultCause} {a : Option Nat}

/-! ### The two ways an instruction ends -/

/-- Every instruction in every state answers a next state: it raises the fault it is due, or it completes. -/
theorem exec_cases (i : Instr) (s : State) :
    (∃ c a, s.Due i c a ∧ exec i s = .next (s.withFault c (some (encode i)) a)) ∨
    ((¬ ∃ c a, s.Due i c a) ∧ ∃ u, exec i s = .next (u.setDw (isDraw i)) ∧ s.Effect i u) := by
  by_cases due : ∃ c a, s.Due i c a
  · obtain ⟨c, a, h⟩ := due
    exact .inl ⟨c, a, h, exec_of_due h⟩
  · exact .inr ⟨due, exec_of_not_due due⟩

/-- Completing leaves the fault record alone (R335). -/
theorem State.Effect.fault_eq (h : s.Effect i u) : u.fault = s.fault := by
  cases h <;> rfl

/-- The draw is the one instruction of family 0xD (30_encoding.md R96). -/
theorem isDraw_iff_family {op : Word} (h : decodeWord op = .instr i) : isDraw i = true ↔ op.toNat / 4096 = 0xD := by
  rw [← family_toNat]
  constructor
  · intro draw
    cases i with
    | drw x y n => rw [← (encodes_of_decodeWord h).1, encode, family_wordXY]; rfl
    | _ => cases draw
  · intro hf
    have familyD : family op = 0xD#4 := BitVec.eq_of_toNat_eq hf
    have draw : decodeWord op = .instr (.drw (fieldX op) (fieldY op) (fieldN op)) := by simp [decodeWord, familyD]
    rw [draw] at h
    cases h
    rfl

/-! ### What a step leaves -/

/-- The fetch's pc advance does not bear on the fault an instruction is due. -/
theorem State.due_advancePc : s.advancePc.Due i c a ↔ s.Due i c a := by
  have accessed : s.advancePc.bytesAccessed i = s.bytesAccessed i := by cases i <;> rfl
  constructor <;> rintro (⟨nnn, full⟩ | empty | ⟨_, a, k, hk, ha, bad, low⟩)
  · exact .overflow nnn full
  · exact .underflow empty
  · exact .bounds i a k (accessed ▸ hk) ha bad low
  · exact .overflow nnn full
  · exact .underflow empty
  · exact .bounds i a k (accessed.symm ▸ hk) ha bad low

/-- The states a step without a stored fault can leave, one constructor per branch of R120: the fetch faults, the opcode
is unimplemented, the instruction raises the fault it is due, or it completes. -/
inductive State.Stepped (s : State) : State → Prop where
  | fetchFault (beyond : 0xFFE < s.pc.toNat) :
      s.Stepped (s.withFault .fetchOutOfRange none (some (max s.pc.toNat 0x1000)))
  | unimplemented {why : DecodeError} (inRange : s.pc.toNat ≤ 0xFFE) (hd : decodeWord s.opcodeAtPc = .rejected why) :
      s.Stepped (s.advancePc.withFault .unimplementedInstruction (some s.opcodeAtPc) none)
  | raised {i : Instr} {c : FaultCause} {a : Option Nat} (fetches : s.Fetches i) (due : s.Due i c a) :
      s.Stepped (s.advancePc.withFault c (some s.opcodeAtPc) a)
  | completed {i : Instr} {u : State} (fetches : s.Fetches i) (effect : s.advancePc.Effect i u) :
      s.Stepped (u.setDw (isDraw i))

/-- Without a stored fault the machine goes on (R357). -/
theorem exists_stepped (running : s.fault = none) : ∃ t, step s = .next t ∧ s.Stepped t := by
  rcases step_cases s with ⟨r, hr, -⟩ | ⟨-, beyond, e⟩ | ⟨why, -, inRange, hd, e⟩ | ⟨i, fetches, e⟩
  · rw [running] at hr
    cases hr
  · exact ⟨_, e, .fetchFault beyond⟩
  · exact ⟨_, e, .unimplemented inRange hd⟩
  · rw [e]
    have opcode : encode i = s.opcodeAtPc := (encodes_of_decodeWord fetches.decodes).1
    rcases exec_cases i s.advancePc with ⟨c, a, due, e⟩ | ⟨-, u, e, effect⟩
    · exact ⟨_, e, opcode ▸ .raised fetches (State.due_advancePc.mp due)⟩
    · exact ⟨_, e, .completed fetches effect⟩

theorem fault_eq_none_of_step (h : step s = .next t) : s.fault = none := by
  cases hf : s.fault with
  | none => rfl
  | some r =>
    rw [step_of_fault hf] at h
    cases h

theorem stepped_of_step (h : step s = .next t) : s.Stepped t := by
  obtain ⟨t', h', stepped⟩ := exists_stepped (fault_eq_none_of_step h)
  rw [h'] at h
  cases h
  exact stepped

/-! ### The obligations on a step -/

/-- Settles O5: `step_of_fetches`, and whatever decodes is well-formed. -/
theorem stepExecutesTheDecodedInstruction : Obligations.StepExecutesTheDecodedInstruction := by
  unfold Obligations.StepExecutesTheDecodedInstruction
  intro s i fetches
  exact ⟨(encodes_of_decodeWord fetches.decodes).2, step_of_fetches fetches⟩

/-- Settles O6: the step raises the fault in the state after the fetch's pc advance. -/
theorem unimplementedOpcodeIsRecorded : Obligations.UnimplementedOpcodeIsRecorded := by
  unfold Obligations.UnimplementedOpcodeIsRecorded
  intro s why running inRange rejected
  exact step_of_rejected running inRange rejected

/-- Settles O7: the step raises the fault in the state it finds. -/
theorem fetchBeyondMemoryIsRecorded : Obligations.FetchBeyondMemoryIsRecorded := by
  unfold Obligations.FetchBeyondMemoryIsRecorded
  intro s running beyond
  exact step_of_gt running beyond

/-- Settles O8: the step stops, so the command leaves the state and reads the stored record back. -/
theorem faultedMachineExecutesNothing : Obligations.FaultedMachineExecutesNothing := by
  unfold Obligations.FaultedMachineExecutesNothing
  intro s r faulted
  have reply : stepReply s = .fault r := by simp only [stepReply, stepState_of_fault faulted, faulted]
  refine ⟨step_of_fault faulted, ?_⟩
  rw [perform, stepState_of_fault faulted, reply]

/-- Settles O9: a stored fault stops the step, and without one `exists_stepped` gives the next state. -/
theorem stepGoesOnExactlyWithoutAFault : Obligations.StepGoesOnExactlyWithoutAFault := by
  unfold Obligations.StepGoesOnExactlyWithoutAFault
  intro s
  refine ⟨⟨fun ⟨t, h⟩ => fault_eq_none_of_step h, fun running => ?_⟩, fun q refused => ?_⟩
  · obtain ⟨t, h, -⟩ := exists_stepped running
    exact ⟨t, h⟩
  · cases hf : s.fault with
    | some r =>
      rw [step_of_fault hf] at refused
      cases refused
    | none =>
      obtain ⟨t, h, -⟩ := exists_stepped hf
      rw [h] at refused
      cases refused

/-- Settles O10: an instruction raises the fault it is due (`exec_of_due`), and otherwise completes without one. -/
theorem faultsOfInstructionsAreExactlyThoseDue : Obligations.FaultsOfInstructionsAreExactlyThoseDue := by
  unfold Obligations.FaultsOfInstructionsAreExactlyThoseDue
  intro s t i fetches h
  rw [step_of_fetches fetches] at h
  have opcode : encode i = s.opcodeAtPc := (encodes_of_decodeWord fetches.decodes).1
  have recorded : ∀ c a, s.Due i c a → t.fault = some ⟨c, some s.opcodeAtPc, s.pc + 2#16, a⟩ := by
    intro c a due
    rw [exec_of_due (State.due_advancePc.mpr due), raise_eq_next] at h
    rw [h, opcode, State.withFault_fault, State.advancePc_pc]
  refine ⟨⟨fun clean ⟨c, a, due⟩ => ?_, fun notDue => ?_⟩, recorded⟩
  · rw [recorded c a due] at clean
    cases clean
  · simp only [← State.due_advancePc (s := s)] at notDue
    obtain ⟨u, e, effect⟩ := exec_of_not_due notDue
    rw [e, complete_eq_next] at h
    rw [h, State.setDw_fault, effect.fault_eq, State.advancePc_fault, fetches.running]

/-- Settles O11: each branch of `State.Stepped` that faults is a raise, which writes the record and nothing else. -/
theorem faultsArePrecise : Obligations.FaultsArePrecise := by
  unfold Obligations.FaultsArePrecise
  intro s t r running h recorded
  cases stepped_of_step h with
  | fetchFault beyond =>
    cases recorded
    exact ⟨fun inRange => absurd beyond (Nat.not_lt.mpr inRange), fun _ => rfl⟩
  | unimplemented inRange =>
    cases recorded
    exact ⟨fun _ => rfl, fun beyond => absurd beyond (Nat.not_lt.mpr inRange)⟩
  | raised fetches =>
    cases recorded
    exact ⟨fun _ => rfl, fun beyond => absurd beyond (Nat.not_lt.mpr fetches.inRange)⟩
  | completed _ effect =>
    rw [State.setDw_fault, effect.fault_eq, State.advancePc_fault, running] at recorded
    cases recorded

/-- Settles O12: completing writes DW by `isDraw`, which is the family 0xD; a raise does not write it. -/
theorem displayWaitFollowsTheExecutedOpcode : Obligations.DisplayWaitFollowsTheExecutedOpcode := by
  unfold Obligations.DisplayWaitFollowsTheExecutedOpcode
  intro s t running h
  cases stepped_of_step h with
  | fetchFault | unimplemented | raised => exact ⟨fun clean => absurd clean (Option.some_ne_none _), fun _ => rfl⟩
  | completed fetches effect =>
    have clean := effect.fault_eq.trans running
    exact ⟨fun _ => isDraw_iff_family fetches.decodes, fun faulted => absurd clean faulted⟩

end Sys2Proof.Machine
end

section
/-! Proofs about who may write what (10_state.md R22-R31, 20_memory.md R70): each piece of state is written by the
instructions of its row, read off `State.Effect`, and no fault writes any of them. -/

namespace Sys2Proof.Machine

variable {s t u : State} {i : Instr}

/-! ### What an effect leaves unchanged, piece by piece -/

namespace State.Effect

theorem keeps_keys_and_rom (h : s.Effect i u) : u.keys = s.keys ∧ u.keysPrev = s.keysPrev ∧
    u.romLoaded = s.romLoaded ∧ u.romPath = s.romPath := by
  cases h <;> exact ⟨rfl, rfl, rfl, rfl⟩

theorem keepsOthers (h : s.Effect i u) : s.KeepsOthers i u.v := by
  cases h with
  | registers _ _ others | drw _ _ others | ldVMem _ _ others => exact others
  | _ => exact fun _ _ => rfl

theorem mem_follows (h : s.Effect i u) : s.mem.Follows u.mem := by
  cases h with
  | ldBV _ hm | ldMemV _ _ hm => exact hm
  | _ => exact ⟨rfl, id⟩

theorem mem_eq (h : s.Effect i u) (notBcd : ∀ x, i ≠ .ldBV x) (notStore : ∀ x, i ≠ .ldMemV x) : u.mem = s.mem := by
  cases h with
  | ldBV x => exact absurd rfl (notBcd x)
  | ldMemV x => exact absurd rfl (notStore x)
  | _ => rfl

theorem screen_eq (h : s.Effect i u) (notDrw : ∀ x y n, i ≠ .drw x y n) (notCls : i ≠ .cls) :
    u.screen = s.screen := by
  cases h with
  | drw => exact absurd rfl (notDrw _ _ _)
  | cls => exact absurd rfl notCls
  | _ => rfl

theorem dt_eq (h : s.Effect i u) (notMove : ∀ x, i ≠ .ldDtV x) : u.dt = s.dt := by
  cases h with
  | ldDtV x => exact absurd rfl (notMove x)
  | _ => rfl

theorem st_eq (h : s.Effect i u) (notMove : ∀ x, i ≠ .ldStV x) : u.st = s.st := by
  cases h with
  | ldStV x => exact absurd rfl (notMove x)
  | _ => rfl

theorem stack_eq (h : s.Effect i u) (notCall : ∀ nnn, i ≠ .call nnn) (notRet : i ≠ .ret) :
    u.stack = s.stack ∧ u.sp = s.sp := by
  cases h with
  | call nnn => exact absurd rfl (notCall nnn)
  | ret => exact absurd rfl notRet
  | _ => exact ⟨rfl, rfl⟩

theorem i_eq (h : s.Effect i u) (notLdI : ∀ nnn, i ≠ .ldI nnn) (notAdd : ∀ x, i ≠ .addIV x) (notFont : ∀ x, i ≠ .ldFV x)
    (notStore : ∀ x, i ≠ .ldMemV x) (notLoad : ∀ x, i ≠ .ldVMem x) : u.i = s.i := by
  cases h with
  | ldI nnn => exact absurd rfl (notLdI nnn)
  | addIV x => exact absurd rfl (notAdd x)
  | ldFV x => exact absurd rfl (notFont x)
  | ldMemV x => exact absurd rfl (notStore x)
  | ldVMem => exact absurd rfl (notLoad _)
  | _ => rfl

/-- How pc moves from the address + 2 (10_state.md R24). -/
theorem pc_cases (h : s.Effect i u) : (∃ nnn, i = .jp nnn) ∨ (∃ nnn, i = .jpV0 nnn) ∨ (∃ nnn, i = .call nnn) ∨
    i = .ret ∨ u.pc = s.pc ∨ (u.pc = s.pc + 2#16 ∧ IsSkip i) ∨ (u.pc = s.pc - 2#16 ∧ ∃ x, i = .ldVK x) := by
  cases h with
  | jp nnn => exact .inl ⟨nnn, rfl⟩
  | jpV0 nnn => exact .inr (.inl ⟨nnn, rfl⟩)
  | call nnn => exact .inr (.inr (.inl ⟨nnn, rfl⟩))
  | ret => exact .inr (.inr (.inr (.inl rfl)))
  | skip hi => exact .inr (.inr (.inr (.inr (.inr (.inl ⟨rfl, hi⟩)))))
  | ldVK x => exact .inr (.inr (.inr (.inr (.inr (.inr ⟨rfl, x, rfl⟩)))))
  | _ => exact .inr (.inr (.inr (.inr (.inl rfl))))

end State.Effect

/-- What an instruction leaves differs by its effect from the state it found, but for the fault record and DW. -/
theorem exec_next_cases (h : exec i s = .next t) :
    (∃ c op a, t = s.withFault c op a) ∨ ∃ u, s.Effect i u ∧ t = u.setDw (isDraw i) := by
  rcases exec_cases i s with ⟨c, a, -, e⟩ | ⟨-, u, e, effect⟩ <;> rw [e] at h <;> cases h
  · exact .inl ⟨c, _, a, rfl⟩
  · exact .inr ⟨u, effect, rfl⟩

/-! ### The obligations on the writers -/

/-- Settles O46: no effect and no fault writes the keypad or the ROM status. -/
theorem noInstructionWritesKeysOrRomStatus : Obligations.NoInstructionWritesKeysOrRomStatus := by
  unfold Obligations.NoInstructionWritesKeysOrRomStatus
  intro i s t h
  obtain ⟨c, op, a, rfl⟩ | ⟨u, effect, rfl⟩ := exec_next_cases h
  · exact ⟨rfl, rfl, rfl, rfl⟩
  · exact effect.keeps_keys_and_rom

/-- Settles O47: every effect keeps the registers outside the instruction's row of the operand table. -/
theorem onlyTheTablesRegistersAreWritten : Obligations.OnlyTheTablesRegistersAreWritten := by
  unfold Obligations.OnlyTheTablesRegistersAreWritten
  intro i s t h
  obtain ⟨c, op, a, rfl⟩ | ⟨u, effect, rfl⟩ := exec_next_cases h
  · exact fun _ _ => rfl
  · exact effect.keepsOthers

/-- Settles O48: the effects of Fx33 and Fx55 are the two that write memory, and both keep FONT. -/
theorem onlyTheTwoStoresWriteMemory : Obligations.OnlyTheTwoStoresWriteMemory := by
  unfold Obligations.OnlyTheTwoStoresWriteMemory
  intro i s t h
  obtain ⟨c, op, a, rfl⟩ | ⟨u, effect, rfl⟩ := exec_next_cases h
  · exact ⟨rfl, fun _ _ => rfl⟩
  · exact ⟨effect.mem_follows.font, effect.mem_eq⟩

/-- Settles O49: the effects of Dxyn and 00E0, of Fx15 and of Fx18 are those that write the plane, DT and ST. -/
theorem onlyTheNamedInstructionsWriteDisplayAndTimers : Obligations.OnlyTheNamedInstructionsWriteDisplayAndTimers := by
  unfold Obligations.OnlyTheNamedInstructionsWriteDisplayAndTimers
  intro i s t h
  obtain ⟨c, op, a, rfl⟩ | ⟨u, effect, rfl⟩ := exec_next_cases h
  · exact ⟨fun _ _ => rfl, fun _ => rfl, fun _ => rfl⟩
  · exact ⟨effect.screen_eq, effect.dt_eq, effect.st_eq⟩

/-- Settles O50: the effects of 2nnn and 00EE write the stack, and those of five instructions write I. -/
theorem onlyTheNamedInstructionsWriteStackAndIndex : Obligations.OnlyTheNamedInstructionsWriteStackAndIndex := by
  unfold Obligations.OnlyTheNamedInstructionsWriteStackAndIndex
  intro i s t h
  obtain ⟨c, op, a, rfl⟩ | ⟨u, effect, rfl⟩ := exec_next_cases h
  · exact ⟨fun _ _ => ⟨rfl, rfl⟩, fun _ _ _ _ _ => rfl⟩
  · exact ⟨effect.stack_eq, effect.i_eq⟩

/-- Settles O51: `State.Effect.pc_cases`; a fault leaves pc where the fetch put it. -/
theorem onlyTheControlInstructionsMoveThePc : Obligations.OnlyTheControlInstructionsMoveThePc := by
  unfold Obligations.OnlyTheControlInstructionsMoveThePc
  intro i s t h
  obtain ⟨c, op, a, rfl⟩ | ⟨u, effect, rfl⟩ := exec_next_cases h
  · exact .inr (.inr (.inr (.inr (.inl rfl))))
  · exact effect.pc_cases

end Sys2Proof.Machine
end

section
/-! Proofs about the invariant (10_state.md R25, R39): power-on meets it, and every step and every command of the host
keeps it. -/

namespace Sys2Proof.Machine

variable {s t u : State} {i : Instr}

/-! ### One step -/

/-- After a fetch pc is in 2..0x1000, and from there no effect takes it above 0xFFF + 0xFF, the farthest target of
Bnnn. -/
theorem State.Effect.inv (h : s.Effect i u) (inv : s.Inv) (lo : 2 ≤ s.pc.toNat) (hi : s.pc.toNat ≤ 0x1000) : u.Inv := by
  have same : s.pc.toNat ≤ 0x10FE := inv.pc_le
  cases h with
  | jp nnn =>
    refine ⟨?_, inv.stack_le, inv.mem_wf⟩
    rw [State.setPc_pc, addressOf_toNat]
    omega
  | jpV0 nnn =>
    refine ⟨?_, inv.stack_le, inv.mem_wf⟩
    rw [State.setPc_pc, addressOf_add_widen_toNat]
    omega
  | call nnn below =>
    refine ⟨?_, fun j hj => ?_, inv.mem_wf⟩
    · show (addressOf nnn).toNat ≤ 0x10FE
      rw [addressOf_toNat]
      omega
    · show ((s.stack.set s.sp.val s.pc)[j]).toNat ≤ 0x1000
      rw [Vector.getElem_set]
      split
      · exact hi
      · exact inv.stack_le j hj
  | ret pos => exact ⟨(inv.stack_le _ _).trans (by decide), inv.stack_le, inv.mem_wf⟩
  | skip =>
    refine ⟨?_, inv.stack_le, inv.mem_wf⟩
    rw [State.setPc_pc]
    bv_omega
  | ldVK =>
    refine ⟨?_, inv.stack_le, inv.mem_wf⟩
    rw [State.setPc_pc]
    bv_omega
  | ldBV _ hm | ldMemV _ _ hm => exact ⟨same, inv.stack_le, hm.wf inv.mem_wf⟩
  | registers | cls | drw | ldDtV | ldStV | ldI | addIV | ldFV | ldVMem => exact ⟨same, inv.stack_le, inv.mem_wf⟩

theorem State.Stepped.inv (h : s.Stepped t) (inv : s.Inv) : t.Inv := by
  have advanced : s.pc.toNat ≤ 0xFFE → s.advancePc.pc.toNat = s.pc.toNat + 2 := by
    rw [State.advancePc_pc]
    bv_omega
  have fetched : s.pc.toNat ≤ 0xFFE → s.advancePc.Inv := fun inRange =>
    ⟨by rw [advanced inRange]; omega, inv.stack_le, inv.mem_wf⟩
  cases h with
  | fetchFault => exact ⟨inv.pc_le, inv.stack_le, inv.mem_wf⟩
  | unimplemented inRange => exact ⟨(fetched inRange).pc_le, inv.stack_le, inv.mem_wf⟩
  | raised fetches => exact ⟨(fetched fetches.inRange).pc_le, inv.stack_le, inv.mem_wf⟩
  | completed fetches effect =>
    have inRange := fetches.inRange
    have left := effect.inv (fetched inRange) (by rw [advanced inRange]; omega) (by rw [advanced inRange]; omega)
    exact ⟨left.pc_le, left.stack_le, left.mem_wf⟩

/-- A step leaves FONT alone. -/
theorem State.Stepped.font_eq (h : s.Stepped t) : t.mem.font = s.mem.font := by
  cases h with
  | fetchFault | unimplemented | raised => rfl
  | completed _ effect => exact effect.mem_follows.font

/-! ### The commands -/

/-- The step command leaves the state as it is, or does a step. -/
theorem stepState_eq_or_stepped (s : State) : stepState s = s ∨ s.Stepped (stepState s) := by
  cases hf : s.fault with
  | some r => exact .inl (stepState_of_fault hf)
  | none =>
    obtain ⟨t, h, stepped⟩ := exists_stepped hf
    exact .inr (stepState_of_next h ▸ stepped)

/-- What every step keeps, the step command and every run keep. -/
theorem stepState_keeps {P : State → Prop} (keeps : ∀ s t : State, s.Stepped t → P s → P t) (h : P s) :
    P (stepState s) := by
  rcases stepState_eq_or_stepped s with e | stepped
  · exact e.symm ▸ h
  · exact keeps _ _ stepped h

theorem run_keeps {P : State → Prop} (keeps : ∀ s t : State, s.Stepped t → P s → P t) (n : Nat) (h : P s) :
    P (run n s).1 := by
  induction n generalizing s with
  | zero => exact h
  | succ n ih =>
    have next := stepState_keeps keeps h
    rw [run]
    split_ifs
    · exact h
    · exact next
    · exact ih next

/-- The invariant, with FONT at a fixed value. -/
def State.InvWith (font : Font) (s : State) : Prop := s.Inv ∧ s.mem.font = font

theorem State.Stepped.invWith {font : Font} (s t : State) (h : s.Stepped t) (hs : s.InvWith font) : t.InvWith font :=
  ⟨h.inv hs.1, h.font_eq.trans hs.2⟩

theorem powerOn_inv (font : Font) : (State.powerOn font).Inv :=
  ⟨by simp [State.powerOn], fun j hj => by simp [State.powerOn], powerOn_mem_wf font⟩

theorem resetCore_inv (s : State) : (resetCore s).Inv :=
  have inv := powerOn_inv s.mem.font
  ⟨inv.pc_le, inv.stack_le, inv.mem_wf⟩

theorem loadRom_invWith {font : Font} (src : RomSource) (path : String) (h : s.InvWith font) :
    (loadRom src path s).1.InvWith font := by
  cases src with
  | unreadable => exact h
  | bytes image =>
    rw [loadRom]
    split_ifs
    · exact h
    · have reset := resetCore_inv s
      exact ⟨⟨reset.pc_le, reset.stack_le, Memory.wf_writeBytes _ _ _ reset.mem_wf⟩,
        (Memory.writeBytes_font _ _ _).trans h.2⟩

theorem perform_invWith {font : Font} (c : Command) (h : s.InvWith font) : (perform c s).1.InvWith font := by
  obtain ⟨inv, hfont⟩ := h
  cases c with
  | reset => exact ⟨resetCore_inv s, hfont⟩
  | loadRom src path => exact loadRom_invWith src path ⟨inv, hfont⟩
  | step => exact stepState_keeps State.Stepped.invWith ⟨inv, hfont⟩
  | run n => exact run_keeps State.Stepped.invWith n ⟨inv, hfont⟩
  | tickTimers =>
    rw [perform, tickTimers]
    split
    · exact ⟨inv, hfont⟩
    · exact ⟨⟨inv.pc_le, inv.stack_le, inv.mem_wf⟩, hfont⟩
  | snapshotKeypad | writeKeys | writeKey | writeDT | writeST =>
    exact ⟨⟨inv.pc_le, inv.stack_le, inv.mem_wf⟩, hfont⟩
  | readScreen | readDT | readST | readDW | readFault | readRomLoaded | readRomPath | soundOn => exact ⟨inv, hfont⟩

theorem performAll_invWith {font : Font} (cs : List Command) (h : s.InvWith font) :
    (performAll cs s).InvWith font := by
  induction cs generalizing s with
  | nil => exact h
  | cons c cs ih => exact ih (perform_invWith c h)

/-! ### The obligations on the invariant -/

/-- Settles O52: `State.Stepped.inv`, which goes through the branches of the step and the effects of an instruction. -/
theorem stepKeepsTheInvariant : Obligations.StepKeepsTheInvariant := by
  unfold Obligations.StepKeepsTheInvariant
  intro s t inv h
  exact (stepped_of_step h).inv inv

/-- Settles O53: by induction over the commands, with the runs by induction over their length. -/
theorem commandsKeepTheInvariant : Obligations.CommandsKeepTheInvariant := by
  unfold Obligations.CommandsKeepTheInvariant
  intro cs s inv
  exact performAll_invWith cs ⟨inv, rfl⟩

/-- Settles O54: the reset values of pc and the stack are in range, and the empty list of cells is canonical. -/
theorem powerOnMeetsTheInvariant : Obligations.PowerOnMeetsTheInvariant := by
  unfold Obligations.PowerOnMeetsTheInvariant
  exact ⟨powerOn_inv, resetCore_inv⟩

end Sys2Proof.Machine
end

section
/-! Proofs about the jump with offset, the call, the return and the register skips (41_system_and_flow.md). -/

namespace Sys2Proof.Machine

/-- JP V0 completes from the state with pc at the sum (R155). -/
theorem exec_jpV0 (nnn : Addr12) (s : State) :
    exec (.jpV0 nnn) s = .next ((s.setPc (addressOf nnn + widen (s.readV 0))).setDw false) := rfl

/-- CALL below depth 16 (R156). -/
theorem exec_call_of_lt (nnn : Addr12) (s : State) (h : s.sp.val < 16) :
    exec (.call nnn) s = .next { s with
      pc := addressOf nnn
      stack := s.stack.set s.sp.val s.pc
      sp := ⟨s.sp.val + 1, Nat.succ_lt_succ h⟩
      dw := false } :=
  execCall_of_lt nnn s h

/-- RET above depth 0 (R152). -/
theorem exec_ret_of_pos (s : State) (h : 0 < s.sp.val) :
    exec .ret s = .next { s with
      pc := s.stack[s.sp.val - 1]'(by omega), sp := ⟨s.sp.val - 1, by omega⟩, dw := false } :=
  execRet_of_pos s h

/-- The opcode of CALL as a number (30_encoding.md R96). -/
theorem encode_call (nnn : Addr12) : encode (.call nnn) = BitVec.ofNat 16 (0x2000 + nnn.toNat) := by
  apply BitVec.eq_of_toNat_eq
  rw [encode, wordN_toNat, BitVec.toNat_ofNat, BitVec.toNat_ofNat]
  omega

/-- Settles O15: pc is written with a sum that fits in 16 bits. -/
theorem jpV0AddsExactly : Obligations.JpV0AddsExactly := by
  unfold Obligations.JpV0AddsExactly
  intro s nnn
  have target := s.writesPc_setPc (addressOf nnn + widen (s.readV 0))
  rw [addressOf_add_widen_toNat] at target
  exact ⟨_, exec_jpV0 nnn s, target⟩

/-- Settles O16: a write to stack[SP] reads back there and leaves the other slots. -/
theorem callPushesTheReturnAddress : Obligations.CallPushesTheReturnAddress := by
  unfold Obligations.CallPushesTheReturnAddress
  intro s nnn below
  refine ⟨_, exec_call_of_lt nnn s below, addressOf_toNat nnn, rfl, ?_, fun j hj other => ?_, rfl⟩
  · exact Vector.getElem_set_self below
  · exact Vector.getElem_set_ne below hj other.symm

/-- Settles O17: the next state of RET above depth 0. -/
theorem retPopsTheReturnAddress : Obligations.RetPopsTheReturnAddress := by
  unfold Obligations.RetPopsTheReturnAddress
  intro s pos
  exact ⟨_, exec_ret_of_pos s pos, rfl, Nat.sub_add_cancel pos, rfl⟩

/-- Settles O18: at its limit each of the two is due its fault, with its own opcode. -/
theorem stackLimitsAreRecorded : Obligations.StackLimitsAreRecorded := by
  unfold Obligations.StackLimitsAreRecorded
  constructor
  · intro s nnn full
    rw [exec_of_due (.overflow nnn (congrArg Fin.val full)), encode_call, raise, State.withFault_eq]
  · intro s empty
    rw [exec_of_due (.underflow (congrArg Fin.val empty)), encode, raise, State.withFault_eq]

/-- Settles O19: the RET pops the slot that the CALL wrote, at the depth that the CALL counted. -/
theorem retUndoesCall : Obligations.RetUndoesCall := by
  unfold Obligations.RetUndoesCall
  intro s nnn below
  refine ⟨_, _, exec_call_of_lt nnn s below, exec_ret_of_pos _ (Nat.succ_pos _), ?_, fun j hj other => ?_⟩
  · have popped : (s.stack.set s.sp.val s.pc)[s.sp.val] = s.pc := Vector.getElem_set_self below
    simp only [Nat.add_sub_cancel, popped]
  · exact Vector.getElem_set_ne below hj other.symm

/-- Settles O20: each of the four is a skip on its test, and the negative tests exchange the branches. -/
theorem registerSkipsTestEquality : Obligations.RegisterSkipsTestEquality := by
  unfold Obligations.RegisterSkipsTestEquality
  refine ⟨fun s x kk => ?_, fun s x kk => ?_, fun s x y => ?_, fun s x y => ?_⟩ <;>
    exact ⟨_, rfl, s.skipIf_setDw_frame _, by simp⟩

end Sys2Proof.Machine
end

section
/-! Proofs about the loads and the ALU (42_load_alu.md): what a result write followed by a flag write leaves behind, the
flags and results as numbers, and the obligations that follow from them. -/

namespace Sys2Proof.Machine

/-! ### Next states -/

theorem exec_ldReg (x y : Reg) (s : State) :
    exec (.ldReg x y) s = .next ((s.writeV x (s.readV y)).setDw false) := rfl

theorem exec_addImm (x : Reg) (kk : Byte) (s : State) :
    exec (.addImm x kk) s = .next ((s.writeV x (s.readV x + kk)).setDw false) := rfl

/-- SHR completes from a result write of the shifted old Vy (R209). -/
theorem exec_shr (x y : Reg) (s : State) :
    exec (.shr x y) s = .next ((s.writeResult x (s.readV y >>> 1) (bit0Flag (s.readV y))).setDw false) := by
  show Host.Outcome.next _ = _
  rw [State.writeResult_writeV, State.writeV_readV, if_pos rfl]

/-- SHL completes from a result write of the shifted old Vy (R211). -/
theorem exec_shl (x y : Reg) (s : State) :
    exec (.shl x y) s = .next ((s.writeResult x (s.readV y <<< 1) (bit7Flag (s.readV y))).setDw false) := by
  show Host.Outcome.next _ = _
  rw [State.writeResult_writeV, State.writeV_readV, if_pos rfl]

/-- The flag of SUBN after the write of Vx is the flag of the values before it: with x = y both registers hold the
difference 0, and otherwise the difference exceeds Vy exactly if it wrapped (R217). -/
theorem notBorrowFlag_after_write (s : State) (x y : Reg) :
    let written := s.writeV x (s.readV y - s.readV x)
    notBorrowFlag (written.readV y) (written.readV x) = notBorrowFlag (s.readV y) (s.readV x) := by
  intro written
  have readX : written.readV x = s.readV y - s.readV x := by rw [State.writeV_readV, if_pos rfl]
  by_cases same : y = x
  · subst same
    simp [notBorrowFlag]
  · have readY : written.readV y = s.readV y := by rw [State.writeV_readV, if_neg same]
    have wraps : (s.readV y - s.readV x).toNat ≤ (s.readV y).toNat ↔ (s.readV x).toNat ≤ (s.readV y).toNat := by
      bv_omega
    simp only [notBorrowFlag, readX, readY, wraps]

/-- SUBN completes from a result write of what the values before the write give (R217). -/
theorem exec_subn (x y : Reg) (s : State) :
    exec (.subn x y) s =
      .next ((s.writeResult x (s.readV y - s.readV x) (notBorrowFlag (s.readV y) (s.readV x))).setDw false) := by
  rw [← notBorrowFlag_after_write]
  rfl

/-! ### What a result write leaves -/

/-- An instruction that completes from `s.writeResult x b f` writes the result and then the flag, and nothing else. -/
theorem State.writesResultAndFlag_writeResult (s : State) (x : Reg) (b f : Byte) :
    WritesResultAndFlag s ((s.writeResult x b f).setDw false) x b f := by
  refine ⟨rfl, ?_, fun notF => ?_, fun r notX notF => ?_⟩ <;> rw [State.setDw_readV, State.writeResult_readV]
  · rw [if_pos rfl]
  · rw [if_neg notF, if_pos rfl]
  · rw [if_neg notF, if_neg notX]

/-! ### Results and flags as numbers -/

theorem byte_add_eq (a b : Byte) : a + b = BitVec.ofNat 8 ((a.toNat + b.toNat) % 256) := by bv_omega

theorem byte_sub_eq (a b : Byte) : a - b = BitVec.ofNat 8 ((256 + a.toNat - b.toNat) % 256) := by bv_omega

theorem byte_shr_eq (b : Byte) : b >>> 1 = BitVec.ofNat 8 (b.toNat / 2) := by
  apply BitVec.eq_of_toNat_eq
  have := b.isLt
  rw [BitVec.toNat_ushiftRight, Nat.shiftRight_eq_div_pow, BitVec.toNat_ofNat]
  omega

theorem byte_shl_eq (b : Byte) : b <<< 1 = BitVec.ofNat 8 (2 * b.toNat % 256) := by
  apply BitVec.eq_of_toNat_eq
  rw [BitVec.toNat_shiftLeft, Nat.shiftLeft_eq, BitVec.toNat_ofNat]
  omega

theorem carryFlag_eq (a b : Byte) : carryFlag a b = if 255 < a.toNat + b.toNat then 1#8 else 0#8 := by
  simp only [carryFlag, flag, decide_eq_true_eq]

theorem notBorrowFlag_eq (a b : Byte) : notBorrowFlag a b = if b.toNat ≤ a.toNat then 1#8 else 0#8 := by
  simp only [notBorrowFlag, flag, decide_eq_true_eq]

theorem bit0Flag_eq (b : Byte) : bit0Flag b = BitVec.ofNat 8 (b.toNat % 2) := by
  revert b
  decide

theorem bit7Flag_eq (b : Byte) : bit7Flag b = BitVec.ofNat 8 (b.toNat / 128) := by
  revert b
  decide

/-! ### The obligations -/

/-- Settles O22: LD Vx, Vy completes from a lone register write. -/
theorem ldRegCopiesOneRegister : Obligations.LdRegCopiesOneRegister := by
  unfold Obligations.LdRegCopiesOneRegister
  intro s x y
  exact ⟨_, exec_ldReg x y s, s.writesRegister_writeV x (s.readV y)⟩

/-- Settles O23: ADD Vx, kk completes from a lone register write, of the sum modulo 256. -/
theorem addImmWrapsWithoutAFlag : Obligations.AddImmWrapsWithoutAFlag := by
  unfold Obligations.AddImmWrapsWithoutAFlag
  intro s x kk
  exact ⟨_, exec_addImm x kk s, byte_add_eq _ kk ▸ s.writesRegister_writeV x _⟩

/-- Settles O24: the three complete from a result write with flag 0. -/
theorem logicalOpsResetVf : Obligations.LogicalOpsResetVf := by
  unfold Obligations.LogicalOpsResetVf
  intro s x y
  exact ⟨⟨_, rfl, s.writesResultAndFlag_writeResult x _ _⟩, ⟨_, rfl, s.writesResultAndFlag_writeResult x _ _⟩,
    ⟨_, rfl, s.writesResultAndFlag_writeResult x _ _⟩⟩

/-- Settles O25: ADD completes from a result write of the sum, with the carry. -/
theorem addRegCarries : Obligations.AddRegCarries := by
  unfold Obligations.AddRegCarries
  intro s x y
  rw [← byte_add_eq, ← carryFlag_eq]
  exact ⟨_, rfl, s.writesResultAndFlag_writeResult x _ _⟩

/-- Settles O26: SUB completes from a result write of the difference, with not borrow. -/
theorem subSetsNotBorrow : Obligations.SubSetsNotBorrow := by
  unfold Obligations.SubSetsNotBorrow
  intro s x y
  rw [← byte_sub_eq, ← notBorrowFlag_eq]
  exact ⟨_, rfl, s.writesResultAndFlag_writeResult x _ _⟩

/-- Settles O27: `exec_subn` gives SUBN the flag of the values before the write. -/
theorem subnOrderMakesNoDifference : Obligations.SubnOrderMakesNoDifference := by
  unfold Obligations.SubnOrderMakesNoDifference
  intro s x y
  rw [← byte_sub_eq, ← notBorrowFlag_eq]
  exact ⟨_, exec_subn x y s, s.writesResultAndFlag_writeResult x _ _⟩

/-- Settles O28: both shifts complete from a result write of the old Vy, shifted, with the bit shifted out. -/
theorem shiftsCopyVyFirst : Obligations.ShiftsCopyVyFirst := by
  unfold Obligations.ShiftsCopyVyFirst
  intro s x y
  rw [← byte_shr_eq, ← byte_shl_eq, ← bit0Flag_eq, ← bit7Flag_eq]
  exact ⟨⟨_, exec_shr x y s, s.writesResultAndFlag_writeResult x _ _⟩,
    ⟨_, exec_shl x y s, s.writesResultAndFlag_writeResult x _ _⟩⟩

/-- Settles O30: DW and the draw count aside, RND is a lone register write, of the drawn byte AND kk. -/
theorem rndTakesOneDraw : Obligations.RndTakesOneDraw := by
  unfold Obligations.RndTakesOneDraw
  intro s x kk
  obtain ⟨-, written, others⟩ := s.tookDraw.writesRegister_writeV x (s.nextDraw &&& kk)
  exact ⟨_, rfl, rfl, written, others⟩

end Sys2Proof.Machine
end

section
/-! Proofs about a draw of any height (43_display.md): its next state, pixel by pixel, and drawing twice. -/

namespace Sys2Proof.Machine

/-- What a draw in range leaves (R250-R254): the collision test and the sprite bits are those of the state before it. -/
structure Drawn (s : State) (x y : Reg) (n : Nibble) (t : State) : Prop where
  pixel : ∀ c r, t.pixel c r = (s.pixel c r ^^ s.drwBit x y n c r)
  flag : t.readV Reg.f = if ∃ c r, s.drwBit x y n c r = true ∧ s.pixel c r = true then 1#8 else 0#8
  others : ∀ r, r ≠ Reg.f → t.readV r = s.readV r
  frame : t = { s with v := t.v, screen := t.screen, dw := true }

/-- Resetting VF first changes neither the plane nor the bytes that are drawn. -/
theorem exec_drw_of_ok {s : State} {x y : Reg} {n : Nibble} (inRange : ¬ s.accessOutOfRange (.drw x y n)) :
    ∃ t, exec (.drw x y n) s = .next t ∧ Drawn s x y n t := by
  refine ⟨_, execDrw_of_ok inRange, fun c r => ?_, ?_, fun r notF => ?_, ?_⟩
  · rw [State.setDw_pixel, drawRows_pixel]
    rfl
  · rw [State.setDw_readV, drawRows_readV, State.writeVF_readV, if_pos rfl]
    simp only [true_and]
    rfl
  · rw [State.setDw_readV, s.drawRows_keepsOthers _ _ _ notF]
  · rw [drawRows_eq]
    rfl

/-- Settles O31: `exec_drw_of_ok`, from what the draw loops do to each pixel and to VF. -/
theorem drwXorsTheClippedSprite : Obligations.DrwXorsTheClippedSprite := by
  unfold Obligations.DrwXorsTheClippedSprite
  intro s x y n inRange
  obtain ⟨t, h, drawn⟩ := exec_drw_of_ok inRange
  exact ⟨t, h, drawn.pixel, drawn.flag, drawn.others, drawn.frame⟩

/-- A draw whose coordinates are not in VF leaves everything that fixes the sprite: I, memory and the two
coordinates. -/
theorem Drawn.sprite_eq {s t : State} {x y : Reg} {n : Nibble} (drawn : Drawn s x y n t) (hx : x ≠ Reg.f)
    (hy : y ≠ Reg.f) : t.drwBit x y n = s.drwBit x y n ∧
      (t.accessOutOfRange (.drw x y n) ↔ s.accessOutOfRange (.drw x y n)) := by
  have index : t.i = s.i := (congrArg State.i drawn.frame).trans rfl
  have bytes : t.readMem = s.readMem := (congrArg State.readMem drawn.frame).trans rfl
  have rows : t.drwRows y n = s.drwRows y n := by rw [State.drwRows, drawn.others y hy, State.drwRows]
  constructor
  · funext c r
    simp only [State.drwBit, State.spriteBit, index, bytes, rows, drawn.others x hx, drawn.others y hy]
  · simp only [State.accessOutOfRange, State.bytesAccessed, index, rows]

/-- Settles O33: the second draw XORs the same bits, and a bit meets a lit pixel exactly where the first draw lit it. -/
theorem drawingTwiceRestoresThePlane : Obligations.DrawingTwiceRestoresThePlane := by
  unfold Obligations.DrawingTwiceRestoresThePlane
  intro s x y n hx hy inRange
  obtain ⟨t, h, first⟩ := exec_drw_of_ok inRange
  obtain ⟨sprite, range⟩ := first.sprite_eq hx hy
  obtain ⟨u, h', second⟩ := exec_drw_of_ok (mt range.mp inRange)
  refine ⟨t, u, h, h', fun c r => ?_, ?_⟩
  · rw [second.pixel, first.pixel, sprite, Bool.xor_assoc, Bool.xor_self, Bool.xor_false]
  · have lit : (∃ c r, t.drwBit x y n c r = true ∧ t.pixel c r = true) ↔
        ∃ c r, s.drwBit x y n c r = true ∧ s.pixel c r = false := by
      refine exists_congr fun c => exists_congr fun r => ?_
      rw [sprite, first.pixel]
      refine and_congr_right fun bit => ?_
      rw [bit, Bool.xor_true, Bool.not_eq_true']
    rw [second.flag, ← lit]
    simp

end Sys2Proof.Machine
end

section
/-! Proofs about the key wait, the timer moves and the add to I (44_keys_timers_misc.md). -/

namespace Sys2Proof.Machine

variable {s : State}

/-- A key is released exactly when it was pressed in the snapshot and is not pressed now (R344). -/
theorem State.released_iff (s : State) (k : Key) :
    s.released k = true ↔ s.keysPrev[k.val] = true ∧ s.keys[k.val] = false := by
  simp only [State.released, State.keyPrev, State.key, Bool.and_eq_true, Bool.not_eq_true']

theorem State.not_released_iff (s : State) (k : Key) :
    s.released k = false ↔ (s.keysPrev[k.val] = true → s.keys[k.val] = true) := by
  rw [← Bool.not_eq_true, s.released_iff, not_and, Bool.not_eq_false]

/-- One tick without a fault (60_exceptions.md R346). -/
theorem tickTimers_toNat (running : s.fault = none) :
    (tickTimers s).dt.toNat = s.dt.toNat - 1 ∧ (tickTimers s).st.toNat = s.st.toNat - 1 := by
  rw [tickTimers_of_none running]
  exact ⟨tick_toNat _, tick_toNat _⟩

/-- Settles O35: the scan finds the key (`State.firstReleased_eq_some`), and storing it is a lone register write. -/
theorem keyWaitStoresTheLowestReleasedKey : Obligations.KeyWaitStoresTheLowestReleasedKey := by
  unfold Obligations.KeyWaitStoresTheLowestReleasedKey
  intro s x k before now lowest
  have found : s.firstReleased = some k := (s.firstReleased_eq_some k).mpr
    ⟨(s.released_iff k).mpr ⟨before, now⟩, fun j hj => (s.not_released_iff j).mpr (lowest j hj)⟩
  exact ⟨_, execLdVK_of_some x found, s.writesRegister_writeV x _⟩

/-- Settles O36: the scan finds no key, and stepping pc back undoes the fetch's advance. -/
theorem keyWaitRepeatsUntilARelease : Obligations.KeyWaitRepeatsUntilARelease := by
  unfold Obligations.KeyWaitRepeatsUntilARelease
  intro s x fetches held
  have none : s.advancePc.firstReleased = none :=
    s.advancePc.firstReleased_eq_none.mpr fun k => (s.not_released_iff k).mpr (held k)
  have back : s.pc + 2#16 - 2#16 = s.pc := BitVec.add_sub_cancel _ _
  have waits : step s = complete false (s.advancePc.setPc (s.pc + 2#16 - 2#16)) :=
    (step_of_fetches fetches).trans (execLdVK_of_none x none)
  rw [waits, back]
  rfl

/-- Settles O37: Fx07 is a lone register write; after Fx15 and Fx18 one tick takes the timer written down by
one. -/
theorem timerMovesCopyAByte : Obligations.TimerMovesCopyAByte := by
  unfold Obligations.TimerMovesCopyAByte
  refine ⟨fun s x => ?_, fun s x => ?_, fun s x => ?_⟩
  · exact ⟨_, rfl, s.writesRegister_writeV x s.dt⟩
  · refine ⟨_, rfl, rfl, fun clean => ?_⟩
    exact (tickTimers_toNat (s := (s.setDt (s.readV x)).setDw false) clean).1
  · refine ⟨_, rfl, rfl, fun clean => ?_, decide_eq_true_iff⟩
    exact (tickTimers_toNat (s := (s.setSt (s.readV x)).setDw false) clean).2

/-- Settles O38: addition of words is modulo 2^16. -/
theorem addIndexWrapsWithoutAFlag : Obligations.AddIndexWrapsWithoutAFlag := by
  unfold Obligations.AddIndexWrapsWithoutAFlag
  intro s x
  refine ⟨_, rfl, ?_, rfl⟩
  rw [State.setDw_i, State.setI_i, BitVec.toNat_add, widen_toNat]

end Sys2Proof.Machine
end

section
/-! Proofs about the instructions on memory (44_keys_timers_misc.md R291-R293, 20_memory.md R64): when their bytes are in
range, what they then leave, and that a stored block is what a load or a fetch finds. -/

namespace Sys2Proof.Machine

variable {s : State} {x : Reg}

/-! ### Consecutive bytes -/

theorem Memory.read_writeBytes_inside (m : Memory) (a : Nat) (bs : List Byte) (k : Nat) (hk : k < bs.length)
    (fits : a + k < memSize) : (m.writeBytes a bs).read (a + k) = bs[k] := by
  rw [Memory.read_writeBytes, if_pos ⟨by omega, by omega, fits⟩, Nat.add_sub_cancel_left, List.getD_eq_getElem _ _ hk]

theorem Memory.read_writeBytes_outside (m : Memory) (a : Nat) (bs : List Byte) {a' : Nat}
    (outside : a' < a ∨ a + bs.length ≤ a') : (m.writeBytes a bs).read a' = m.read a' := by
  rw [Memory.read_writeBytes, if_neg (by omega)]

/-! ### Ranges -/

theorem accessOutOfRange_ldBV_iff : s.accessOutOfRange (.ldBV x) ↔ 0x1000 ≤ s.i.toNat + 2 := by
  rw [State.accessOutOfRange_iff, State.bytesAccessed, memSize]
  omega

theorem accessOutOfRange_ldMemV_iff : s.accessOutOfRange (.ldMemV x) ↔ 0x1000 ≤ s.i.toNat + x.val := by
  rw [State.accessOutOfRange_iff, State.bytesAccessed, memSize]
  omega

theorem accessOutOfRange_ldVMem_iff : s.accessOutOfRange (.ldVMem x) ↔ 0x1000 ≤ s.i.toNat + x.val := by
  rw [State.accessOutOfRange_iff, State.bytesAccessed, memSize]
  omega

/-! ### Opcodes as numbers (30_encoding.md R96) -/

theorem encode_drw (x y : Reg) (n : Nibble) :
    encode (.drw x y n) = BitVec.ofNat 16 (0xD000 + 256 * x.val + 16 * y.val + n.toNat) := by
  apply BitVec.eq_of_toNat_eq
  rw [encode, wordXY_toNat, BitVec.toNat_ofNat, BitVec.toNat_ofNat]
  omega

/-- The opcode of an instruction Fxkk. -/
theorem wordXK_F (x : Reg) (kk : Byte) : wordXK 0xF#4 x kk = BitVec.ofNat 16 (0xF000 + kk.toNat + 256 * x.val) := by
  apply BitVec.eq_of_toNat_eq
  rw [wordXK_toNat, BitVec.toNat_ofNat, BitVec.toNat_ofNat]
  omega

/-! ### Next states in range -/

theorem exec_ldBV_of_ok (inRange : s.i.toNat + 2 < 0x1000) : exec (.ldBV x) s = .next { s with
    mem := s.mem.writeBytes s.i.toNat (bcdDigits (s.readV x)), dw := false } :=
  execLdBV_of_ok (by rw [accessOutOfRange_ldBV_iff]; omega)

theorem exec_ldMemV_of_ok (inRange : s.i.toNat + x.val < 0x1000) : exec (.ldMemV x) s = .next { s with
    mem := (storeRegs s.i.toNat (regsUpTo x) s).mem, i := s.i + BitVec.ofNat 16 (x.val + 1), dw := false } := by
  have h := execLdMemV_of_ok (s := s) (x := x) (by rw [accessOutOfRange_ldMemV_iff]; omega)
  rw [storeRegs_eq] at h
  exact h

theorem exec_ldVMem_of_ok (inRange : s.i.toNat + x.val < 0x1000) : exec (.ldVMem x) s = .next { s with
    v := (loadRegs s.i.toNat (regsUpTo x) s).v, i := s.i + BitVec.ofNat 16 (x.val + 1), dw := false } := by
  have h := execLdVMem_of_ok (s := s) (x := x) (by rw [accessOutOfRange_ldVMem_iff]; omega)
  rw [loadRegs_eq] at h
  exact h

/-- In range, I goes up by x + 1 without wrapping. -/
theorem index_add_toNat (inRange : s.i.toNat + x.val < 0x1000) :
    (s.i + BitVec.ofNat 16 (x.val + 1)).toNat = s.i.toNat + x.val + 1 := by
  rw [BitVec.toNat_add, BitVec.toNat_ofNat]
  omega

/-- What the store leaves at each address of the block and outside it. -/
theorem storeRegs_regsUpTo_read (inRange : s.i.toNat + x.val < 0x1000) :
    (∀ r, r ≤ x → (storeRegs s.i.toNat (regsUpTo x) s).mem.read (s.i.toNat + r.val) = s.readV r) ∧
    ∀ a, (a < s.i.toNat ∨ s.i.toNat + x.val < a) → (storeRegs s.i.toNat (regsUpTo x) s).mem.read a = s.mem.read a := by
  have upTo : ∀ r ∈ regsUpTo x, r.val ≤ x.val := fun r hr => (mem_regsUpTo x r).mp hr
  have fits : ∀ r ∈ regsUpTo x, s.i.toNat + r.val < memSize := fun r hr => by
    have := upTo r hr
    rw [memSize]
    omega
  constructor
  · intro r hr
    exact (storeRegs_readMem _ _ s fits _).1 r ((mem_regsUpTo x r).mpr hr) rfl
  · intro a outside
    refine (storeRegs_readMem _ _ s fits a).2 fun r hr => ?_
    have := upTo r hr
    omega

/-- What the load leaves in each register. -/
theorem loadRegs_regsUpTo_readV (base : Nat) (s : State) (x r : Reg) :
    (loadRegs base (regsUpTo x) s).readV r = if r ≤ x then s.readMem (base + r.val) else s.readV r := by
  simp only [loadRegs_readV, mem_regsUpTo]

/-! ### The obligations -/

/-- Settles O40: the three bytes written read back as the digits, and a read elsewhere is as before. -/
theorem bcdStoresThreeDigits : Obligations.BcdStoresThreeDigits := by
  unfold Obligations.BcdStoresThreeDigits
  intro s x inRange
  have written : ∀ k (hk : k < 3), (s.mem.writeBytes s.i.toNat (bcdDigits (s.readV x))).read (s.i.toNat + k) =
      (bcdDigits (s.readV x))[k]'hk := fun k hk =>
    s.mem.read_writeBytes_inside _ (bcdDigits (s.readV x)) k hk (by rw [memSize]; omega)
  have digits := bcdDigits_toNat (s.readV x)
  simp only [bcdDigits, List.map_cons, List.map_nil, List.cons.injEq, and_true] at digits
  obtain ⟨hundreds, tens, ones⟩ := digits
  refine ⟨_, exec_ldBV_of_ok inRange, ?_, ?_, ?_, fun a outside => ?_, rfl⟩
  · exact (congrArg BitVec.toNat (written 0 (by decide))).trans hundreds
  · exact (congrArg BitVec.toNat (written 1 (by decide))).trans tens
  · exact (congrArg BitVec.toNat (written 2 (by decide))).trans ones
  · exact s.mem.read_writeBytes_outside _ _ (outside.imp_right fun h => by simp only [bcdDigits, List.length]; omega)

/-- Settles O41: `storeRegs_regsUpTo_read`, with I up by x + 1. -/
theorem storeRegsWritesTheBlock : Obligations.StoreRegsWritesTheBlock := by
  unfold Obligations.StoreRegsWritesTheBlock
  intro s x inRange
  obtain ⟨block, outside⟩ := storeRegs_regsUpTo_read inRange
  exact ⟨_, exec_ldMemV_of_ok inRange, block, outside, index_add_toNat inRange, rfl⟩

/-- Settles O42: `loadRegs_regsUpTo_readV`, with I up by x + 1. -/
theorem loadRegsReadsTheBlock : Obligations.LoadRegsReadsTheBlock := by
  unfold Obligations.LoadRegsReadsTheBlock
  intro s x inRange
  have reads := loadRegs_regsUpTo_readV s.i.toNat s x
  refine ⟨_, exec_ldVMem_of_ok inRange, fun r hr => ?_, fun r hr => ?_, index_add_toNat inRange, rfl⟩
  · exact (reads r).trans (if_pos hr)
  · exact (reads r).trans (if_neg (not_le.mpr hr))

/-- Settles O43: a load from the same I reads the bytes that the store left there. -/
theorem loadAfterStoreGivesTheRegistersBack : Obligations.LoadAfterStoreGivesTheRegistersBack := by
  unfold Obligations.LoadAfterStoreGivesTheRegistersBack
  intro s u x inRange
  refine ⟨_, exec_ldMemV_of_ok inRange, fun sameMem sameI => ?_⟩
  refine ⟨_, exec_ldVMem_of_ok (sameI ▸ inRange), by simp only [sameI], fun r hr => ?_⟩
  have loaded := (loadRegs_regsUpTo_readV u.i.toNat u x r).trans (if_pos hr)
  rw [State.readMem, sameMem, sameI] at loaded
  rw [sameI]
  exact loaded.trans ((storeRegs_regsUpTo_read inRange).1 r hr)

/-- Settles O44: each of the four is due the bounds fault at max(I, 0x1000) (`exec_of_accessOutOfRange`). -/
theorem dataAccessBeyondMemoryIsRecorded : Obligations.DataAccessBeyondMemoryIsRecorded := by
  unfold Obligations.DataAccessBeyondMemoryIsRecorded
  refine ⟨fun s x y n out => ?_, fun s x out => ?_, fun s x out => ?_, fun s x out => ?_⟩
  · rw [exec_of_accessOutOfRange out, raiseDataAddress, encode_drw]
    rfl
  · rw [exec_of_accessOutOfRange (accessOutOfRange_ldBV_iff.mpr out), raiseDataAddress, encode, wordXK_F]
    rfl
  · rw [exec_of_accessOutOfRange (accessOutOfRange_ldMemV_iff.mpr out), raiseDataAddress, encode, wordXK_F]
    rfl
  · rw [exec_of_accessOutOfRange (accessOutOfRange_ldVMem_iff.mpr out), raiseDataAddress, encode, wordXK_F]
    rfl

/-- Settles O45: a fetch reads memory alone, so it finds two neighbouring registers of the block. -/
theorem storedBytesAreFetched : Obligations.StoredBytesAreFetched := by
  unfold Obligations.StoredBytesAreFetched
  intro s u x r q inRange next upTo
  refine ⟨_, exec_ldMemV_of_ok inRange, fun sameMem atR => ?_⟩
  have block := (storeRegs_regsUpTo_read inRange).1
  have inBlock : q.val ≤ x.val := upTo
  have high : u.readMem u.pc.toNat = s.readV r := by
    rw [State.readMem, sameMem, atR]
    exact block r (show r.val ≤ x.val by omega)
  have low : u.readMem (u.pc.toNat + 1) = s.readV q := by
    rw [State.readMem, sameMem, atR, Nat.add_assoc, ← next]
    exact block q upTo
  rw [State.opcodeAtPc, high, low]

end Sys2Proof.Machine
end

section
/-! Proofs about the host's commands (60_exceptions.md R337, R346-R352; 70_reset_and_hazards.md R390-R397). -/

namespace Sys2Proof.Machine

variable {s t : State}

/-! ### Commands with a fault recorded -/

/-- With a fault recorded, a command other than reset() and loadRom writes at most the keypad and the timers (R337). -/
theorem perform_of_fault {r : FaultRecord} (faulted : s.fault = some r) (c : Command) (notReset : c ≠ .reset)
    (notLoad : ∀ src path, c ≠ .loadRom src path) : (perform c s).1 = { s with
      keys := (perform c s).1.keys, keysPrev := (perform c s).1.keysPrev
      dt := (perform c s).1.dt, st := (perform c s).1.st } := by
  cases c with
  | reset => exact absurd rfl notReset
  | loadRom src path => exact absurd rfl (notLoad src path)
  | step => simp only [perform, stepState_of_fault faulted]
  | run n => simp only [perform, run_of_fault n faulted]
  | tickTimers => simp only [perform, tickTimers_of_some faulted]
  | snapshotKeypad | writeKeys | writeKey | writeDT | writeST => rfl
  | readScreen | readDT | readST | readDW | readFault | readRomLoaded | readRomPath | soundOn => rfl

/-- Settles O55: a failed loadRom changes nothing (`loadRom_of_long`), the other commands are `perform_of_fault`, and
reset() and an install start from the reset values. -/
theorem onlyResetAndLoadRomClearAFault : Obligations.OnlyResetAndLoadRomClearAFault := by
  unfold Obligations.OnlyResetAndLoadRomClearAFault
  refine ⟨fun s r c faulted notReset tooLong => ?_, fun s => rfl, fun s image path fits => ?_⟩
  · cases c with
    | loadRom src path =>
      have failed : loadRom src path s = (s, false) := by
        cases src with
        | unreadable => rfl
        | bytes image => exact loadRom_of_long path s (tooLong image path rfl)
      simp only [perform, failed]
    | _ => exact perform_of_fault faulted _ notReset (by simp)
  · rw [perform, loadRom_of_fits path s fits]
    rfl

/-! ### Ticks -/

/-- n ticks of a machine without a fault. -/
theorem tickTimers_iterate (n : Nat) (running : s.fault = none) :
    (tickTimers^[n] s).dt.toNat = s.dt.toNat - n ∧ (tickTimers^[n] s).st.toNat = s.st.toNat - n ∧
      tickTimers^[n] s = { s with dt := (tickTimers^[n] s).dt, st := (tickTimers^[n] s).st } := by
  induction n generalizing s with
  | zero => exact ⟨rfl, rfl, rfl⟩
  | succ n ih =>
    have first := tickTimers_of_none running
    obtain ⟨dt, st⟩ := tickTimers_toNat running
    obtain ⟨ihDt, ihSt, frame⟩ := ih (s := tickTimers s) (first ▸ running)
    rw [Function.iterate_succ_apply]
    refine ⟨by omega, by omega, ?_⟩
    rw [frame, first]

/-- Settles O56: by induction over the ticks; with a fault the tick is the identity. -/
theorem ticksCountDownToZero : Obligations.TicksCountDownToZero := by
  unfold Obligations.TicksCountDownToZero
  refine fun n s => ⟨fun running => tickTimers_iterate n running, fun faulted => ?_⟩
  obtain ⟨r, hr⟩ := Option.ne_none_iff_exists'.mp faulted
  exact Function.iterate_fixed (tickTimers_of_some hr) n

/-! ### Runs -/

/-- What a run of at most n steps has done: k steps, none of them but the last leaving a fault or a draw, and fewer than
n only after a fault or a draw (R351). -/
structure RanFor (n : Nat) (s : State) (k : Nat) (t : State) : Prop where
  le : k ≤ n
  iterate : t = stepState^[k] s
  between : ∀ j, 0 < j → j < k → (stepState^[j] s).fault = none ∧ (stepState^[j] s).dw = false
  early : k < n → t.fault ≠ none ∨ (0 < k ∧ t.dw = true)

theorem run_ranFor (n : Nat) (s : State) : RanFor n s (run n s).2 (run n s).1 := by
  induction n generalizing s with
  | zero => exact ⟨le_rfl, rfl, fun j pos lt => absurd lt (Nat.not_lt_zero j), fun lt => absurd lt (Nat.not_lt_zero 0)⟩
  | succ n ih =>
    by_cases running : s.fault = none
    · by_cases stop : (stepState s).fault ≠ none ∨ (stepState s).dw = true
      · rw [run_succ_of_stop n running stop]
        exact ⟨by omega, rfl, fun j pos lt => by omega, fun _ => stop.imp_right fun drawn => ⟨Nat.one_pos, drawn⟩⟩
      · simp only [not_or, not_not, Bool.not_eq_true] at stop
        obtain ⟨le, iterate, between, early⟩ := ih (stepState s)
        rw [run_succ_of_go n running stop.1 stop.2]
        refine ⟨Nat.succ_le_succ le, iterate, fun j pos lt => ?_, fun lt => ?_⟩
        · cases j with
          | zero => exact absurd pos (Nat.lt_irrefl 0)
          | succ j =>
            cases j with
            | zero => exact stop
            | succ j => exact between (j + 1) (Nat.succ_pos j) (Nat.lt_of_succ_lt_succ lt)
        · exact (early (Nat.lt_of_succ_lt_succ lt)).imp_right fun drawn => ⟨Nat.succ_pos _, drawn.2⟩
    · obtain ⟨r, hr⟩ := Option.ne_none_iff_exists'.mp running
      rw [run_of_fault (n + 1) hr]
      exact ⟨Nat.zero_le _, rfl, fun j _ lt => absurd lt (Nat.not_lt_zero j), fun _ => .inl running⟩

/-- Settles O57: `run_ranFor`, by induction over n along the three ways the loop goes. -/
theorem runStopsAtADrawOrAFault : Obligations.RunStopsAtADrawOrAFault := by
  unfold Obligations.RunStopsAtADrawOrAFault
  intro n s
  obtain ⟨le, iterate, between, early⟩ := run_ranFor n s
  exact ⟨le, iterate, between, early⟩

/-! ### Frames -/

/-- The keypad and its snapshot are those given. -/
def State.HasKeys (keys keysPrev : Keypad) (s : State) : Prop := s.keys = keys ∧ s.keysPrev = keysPrev

theorem State.Stepped.hasKeys {keys keysPrev : Keypad} (s t : State) (h : s.Stepped t) (hs : s.HasKeys keys keysPrev) :
    t.HasKeys keys keysPrev := by
  cases h with
  | fetchFault | unimplemented | raised => exact hs
  | completed _ effect =>
    obtain ⟨now, before, -⟩ := effect.keeps_keys_and_rom
    exact ⟨now.trans hs.1, before.trans hs.2⟩

/-- Settles O58: every step of the run keeps the keypad and its snapshot (`run_keeps`), and the frame ends in one tick. -/
theorem frameSamplesKeysAndTicksOnce : Obligations.FrameSamplesKeysAndTicksOnce := by
  unfold Obligations.FrameSamplesKeysAndTicksOnce
  intro pad n s ran t
  obtain ⟨now, before⟩ : ran.HasKeys pad s.keys := run_keeps State.Stepped.hasKeys n ⟨rfl, rfl⟩
  have ticked : t = tickTimers ran := rfl
  refine ⟨now, before, ?_, fun running => ticked ▸ tickTimers_toNat running, fun faulted => ?_⟩
  · rw [ticked, tickTimers]
    split <;> rfl
  · obtain ⟨r, hr⟩ := Option.ne_none_iff_exists'.mp faulted
    rw [ticked, tickTimers_of_some hr]

/-! ### Reset and ROM install -/

/-- Settles O59: the image is written from 0x200 on over the reset memory, where it fits. -/
theorem loadRomInstallsOrChangesNothing : Obligations.LoadRomInstallsOrChangesNothing := by
  unfold Obligations.LoadRomInstallsOrChangesNothing
  refine ⟨fun s path => rfl, fun s image path tooLong => loadRom_of_long path s tooLong, fun s image path fits => ?_⟩
  refine ⟨_, loadRom_of_fits path s fits, fun k hk => ?_, fun a outside => ?_, ?_, rfl⟩
  · exact Memory.read_writeBytes_inside _ _ image k hk (by rw [memSize, progStart]; omega)
  · exact Memory.read_writeBytes_outside _ _ image outside
  · exact Memory.writeBytes_font _ _ image

/-- Settles O60: reset() installs the power-on state, whose fields are the reset values and whose memory reads as the
reset contents. -/
theorem resetLeavesTheResetValues : Obligations.ResetLeavesTheResetValues := by
  unfold Obligations.ResetLeavesTheResetValues
  intro s t
  have bytes : ∀ a, t.readMem a = if h : 0x50 ≤ a ∧ a ≤ 0x9F then s.mem.font[a - 0x50] else 0#8 := fun a =>
    (read_powerOn s.mem.font a).trans (resetByte_eq s.mem.font a)
  have registers : ∀ r, t.readV r = 0#8 := fun r => by simp [t, State.readV, resetCore, State.powerOn]
  have slots : ∀ j (h : j < 16), t.stack[j] = 0#16 := fun j h => by simp [t, resetCore, State.powerOn]
  have keys : ∀ k (h : k < 16), t.keys[k] = false ∧ t.keysPrev[k] = false := fun k h => by
    simp [t, resetCore, State.powerOn]
  have pixels : ∀ c r, t.pixel c r = false := fun c r => by simp [t, State.pixel, resetCore, State.powerOn]
  exact ⟨bytes, rfl, registers, slots, keys, pixels, rfl, rfl, rfl, rfl, rfl, rfl, rfl, rfl, rfl, rfl⟩

end Sys2Proof.Machine
end
